-- ==== Sys2Proof/Word.lean ====
section
/-! DEFINITION. The bit-vector types of the engine (spec/00_scope.md R8, R9): transport bytes, the 24-bit length fields,
the 16-bit reply integers and the 32-bit register words. Every one of them is unsigned (R9). -/

namespace Sys2Proof

/-- `u8`: one transport byte (R8: opcode width 8 bits; R40: one command-FIFO byte). -/
abbrev Byte := BitVec 8

/-- `u16`: the width of a reply integer (R8: interface version, serial buffer size). -/
abbrev U16 := BitVec 16

/-- `u24`: the width of a length field (R8: command length, read length). -/
abbrev U24 := BitVec 24

/-- `u32`: a data-FIFO word or the raw value of a register of the SPI register file (R8, R36). -/
abbrev Word := BitVec 32

end Sys2Proof
end

