-- ==== Sys2Proof/Config.lean ====
section
/-! DEFINITION. The implementation's named parameters (spec/00_scope.md R8) and the free values of the environment
(spec/93_implementation_defined.md I10). `Params` is plain data that is well-formed by construction: `P_TX_HWM` is at least
1 (D6), the register addresses are 4-aligned (D29), and the programmer name is ASCII codes with NULs after them (D21, R213).
A state carries its parameters (log entry 7), so what holds of every state holds of every choice of them. -/

namespace Sys2Proof

/-- R10, R38: the three fields of the status register. Levels have no unit (D22). -/
structure Status where
  /-- the SPI master has not yet "fully drained/settled" -/
  busy : Bool
  /-- fill level of the receive side of the data FIFO -/
  rxLevel : Nat
  /-- fill level of the transmit side of the data FIFO -/
  txLevel : Nat
deriving DecidableEq, Repr, Inhabited

/-- `P_REG_ADDR`, counted in 32-bit words so that every address is 4-aligned (R69, D29). -/
structure RegIndices where
  ctrl : Nat
  status : Nat
  cmdFifo : Nat
  dataFifo : Nat
deriving DecidableEq, Repr, Inhabited

/-- The parameters the document leaves open (R8). -/
structure Params where
  /-- `P_REG_ADDR` as word indices (D2, D29) -/
  regIndices : RegIndices
  /-- `P_STATUS_DEC`, as the graph of a function on 32-bit words: the raw words listed here, with their fields (D2) -/
  statusRows : List (Word × Status)
  /-- `P_STATUS_DEC` of every raw word that `statusRows` does not list -/
  statusElse : Status
  /-- `P_TX_HWM` less one: the high-water mark is at least 1 (D6) -/
  txHwmLessOne : Nat
  /-- `P_CMD_FIFO_DEPTH`: a capacity, or `none` for unbounded (D18) -/
  cmdFifoDepth : Option Nat
  /-- `P_CTRL_LEN_BITS`: a width, or `none` when 24 bits fit (D19) -/
  ctrlLenBits : Option Nat
  /-- the characters of `P_PGM_NAME`, each its ASCII code less one (codes 0x01 to 0x7F, D21); at most 16 are used -/
  pgmNameCodes : List (Fin 127)
deriving DecidableEq, Repr, Inhabited

/-- The parameters of the chip at hand: open, so no value of them can be known (D2, D6, D18, D19, D21). -/
opaque Config.params : Params

/-- `P_CTRL_ENC` (D2): the raw control word or words of a mode field, a burst length and a command length. Open. -/
opaque Config.ctrlEnc : BitVec 3 → U24 → U24 → List Word

/-- The raw value of a status read the state does not script: any value (I10, D10), a fresh one for each read. -/
opaque Config.freeStatus : Nat → Word

/-- The word of a data-FIFO read the state does not script: any value (I10, I11, D10), a fresh one for each read. -/
opaque Config.freeData : Nat → Word

end Sys2Proof
end

