-- ==== Sys2Proof/Machine/State.lean ====
section
/-! DEFINITION. The state of the engine and of its environment (spec/10_state.md R20), the events it performs
(spec/00_scope.md R7), the reasons a step can stop, and the state after reset (R45, R270). The block has no data memory, no
instruction memory and no stack (R60), so there is no memory here. -/

namespace Sys2Proof.Machine

/-- The control point of the sequencer (R21): one phase per kind of event. -/
inductive Phase where
  /-- `Get(op)`: the idle phase and the start of every command (R120) -/
  | awaitOpcode
  /-- `Get(a)`: one fixed argument byte (R122) -/
  | arg
  /-- `Put(b)`: one reply byte (R123) -/
  | reply
  /-- `WrCtrl(mode, len, cl)` (R165) -/
  | spiCtrl
  /-- `Get(b)`: one command byte (R166) -/
  | cmdGet
  /-- `Wr(CMD_FIFO, b)` (R166) -/
  | cmdPut
  /-- `Rd(STATUS)`: transmit capacity poll (R167) -/
  | txPoll
  /-- `Get(b)`: one data byte (R168) -/
  | txFill
  /-- `Wr(DATA_FIFO, w)` (R169) -/
  | txPush
  /-- `Rd(STATUS)`: receive data poll (R170) -/
  | rxPoll
  /-- `Rd(DATA_FIFO)` (R171) -/
  | rxPop
  /-- `Put(b)`: one received byte (R172) -/
  | rxEmit
  /-- `Rd(STATUS)`: completion poll (R173) -/
  | busyPoll
  /-- no event; final (R243) -/
  | faulted
deriving DecidableEq, Repr

/-- The direction of a burst (R25). -/
inductive Mode where
  /-- transmit -/
  | tx
  /-- receive -/
  | rx
deriving DecidableEq, Repr

/-- The two phases the register `after` can name (R32). -/
inductive After where
  | awaitOpcode
  | spiCtrl
deriving DecidableEq, Repr

/-- The names a model fault records (R243). -/
inductive FaultName where
  /-- a command byte past `P_CMD_FIFO_DEPTH` (R180) -/
  | cmdFifoOverrun
  /-- a length past `P_CTRL_LEN_BITS` (R181) -/
  | ctrlFieldOverflow
  /-- a register read before the current command writes it (R33); no run reaches it -/
  | unwrittenRead
deriving DecidableEq, Repr

/-- The four registers of the SPI register file (R36). -/
inductive SpiReg where
  | ctrl
  | status
  | cmdFifo
  | dataFifo
deriving DecidableEq, Repr

/-- The external events (R7). The observation of a run is the sequence of events it performs. -/
inductive Event where
  /-- `Get(b)`: host to engine -/
  | get (b : Byte)
  /-- `Put(b)`: engine to host -/
  | put (b : Byte)
  /-- `WrCtrl(mode, burst_len, cmd_len)`, with the mode field's value -/
  | wrCtrl (mode : BitVec 3) (burstLen cmdLen : U24)
  /-- `Wr(CMD_FIFO, b)` -/
  | wrCmdFifo (b : Byte)
  /-- `Wr(DATA_FIFO, w)` -/
  | wrDataFifo (w : Word)
  /-- `Rd(STATUS) = v` -/
  | rdStatus (v : Word)
  /-- `Rd(DATA_FIFO) = v` -/
  | rdDataFifo (v : Word)
deriving DecidableEq, Repr

/-- The internal registers (R22 to R32). `none` is the spec's own "no value" of a register that no step of the current
command has written (R33, R45; log entry 4). -/
structure Regs where
  /-- R22: the opcode byte -/
  op : Option Byte
  /-- R23: the fixed argument bytes taken so far -/
  args : Option (List Byte)
  /-- R23: the number of fixed argument bytes still to take, 0 to 6 -/
  argc : Option Nat
  /-- R24: the command length -/
  cl : Option U24
  /-- R24: the read length -/
  rl : Option U24
  /-- R25: the direction of the burst -/
  mode : Option Mode
  /-- R26: the burst length -/
  len : Option U24
  /-- R27: the command bytes still to stream -/
  cmdRem : Option U24
  /-- R28: the data bytes of the burst still to move -/
  rem : Option U24
  /-- R29: the number of significant bytes of the current data word, 1 to 4 -/
  n : Option Nat
  /-- R29: the index of the next byte lane -/
  j : Option Nat
  /-- R30: the data word being packed or unpacked -/
  word : Option Word
  /-- R31: the command byte in transit -/
  cbyte : Option Byte
  /-- R32: the reply bytes still to put, at most 33 -/
  reply : Option (List Byte)
  /-- R32: the phase entered when `reply` is empty -/
  after : Option After
deriving DecidableEq, Repr

/-- R45: every internal register unwritten. -/
def Regs.unwritten : Regs where
  op := none
  args := none
  argc := none
  cl := none
  rl := none
  mode := none
  len := none
  cmdRem := none
  rem := none
  n := none
  j := none
  word := none
  cbyte := none
  reply := none
  after := none

/-- R37: the fields of the control register, as last written. -/
structure CtrlFields where
  mode : BitVec 3
  burstLen : U24
  cmdLen : U24
deriving DecidableEq, Repr

/-- The register file as the SPI master holds it (R36 to R43). What the master shows or returns is its own choice, under
no law (R43, D10): the values it will answer with, in order, and after them free values (log entry 9). -/
structure SpiMaster where
  /-- `CTRL` (R37) -/
  ctrl : CtrlFields
  /-- the fields of `STATUS` as the master holds them now (R38, R43): only the master sets and clears them (R42), and no law
  ties the value of a read to them (D10; log entry 24) -/
  status : Status
  /-- the command bytes pushed and not yet taken by the master, oldest first (R40) -/
  cmdFifo : List Byte
  /-- the data words pushed and not yet taken by the master, oldest first (R41, R70) -/
  txFifo : List Word
  /-- the words the next reads of `DATA_FIFO` pop, oldest first (R63, R70) -/
  rxWords : List Word
  /-- the raw values the next reads of `STATUS` return, in order (R63) -/
  statusNext : List Word
  /-- the MODEL's own counter of the free values used so far (log entry 9) -/
  drawn : Nat
deriving DecidableEq, Repr

/-- The engine state and the environment state (R20). -/
structure State where
  /-- R21: the control point -/
  phase : Phase
  /-- R243: the fault name that `FAULTED` records -/
  fault : Option FaultName
  /-- R22 to R32: the internal registers -/
  regs : Regs
  /-- R44: the bytes the host has sent that the engine has not taken -/
  tin : List Byte
  /-- R44: the bytes the engine has given that the host has not taken -/
  tout : List Byte
  /-- R62: whether the transport accepts a byte now; the host's choice (D11) -/
  ready : Bool
  /-- R36 to R43: the SPI register file -/
  spi : SpiMaster
  /-- R7: the events performed so far, oldest first -/
  trace : List Event
  /-- R8, R35: the parameters, which no event changes -/
  params : Params
deriving DecidableEq, Repr

/-- Why a step can stop without a next state. Each of these is a state the spec gives no rule for and no run reaches
(`State.coherent`, kept by every step); stopping there is safe. The spec's own faults are no stop: they enter `FAULTED`
(R243, log entry 6). -/
inductive Fault where
  /-- raised in `REPLY` with an empty `reply`: "REPLY is never entered with an empty reply" (R123). Safe. -/
  | replyQueueEmpty
  /-- raised in `ARG` with `argc = 0`: `ARG` is entered with `argc` 1 or 6 (R121) and left at 0 (R122). Safe. -/
  | noArgumentDue
  /-- raised in `ARG` when the last argument of a command that has no after-arguments action arrives: only `S_BUSTYPE`,
  `S_PIN_STATE` and `O_SPIOP` take arguments (R122). In `AWAIT_OPCODE` it stands for an opcode of no row, and there is
  none (R94). Safe. -/
  | noAfterArguments
deriving DecidableEq, Repr

/-- Why an instruction has no meaning. -/
inductive Refusal where
  /-- raised by `exec` for an instruction not modelled yet: none is left. Safe. -/
  | notModelled (mnemonic : String)
deriving DecidableEq, Repr

/-- R45, R270: the machine right after reset. The phase and the unwritten registers are the spec's; what it leaves to the
environment (the transport, the SPI master) is named in log entries 10 to 12. -/
def State.reset : State where
  phase := .awaitOpcode
  fault := none
  regs := Regs.unwritten
  tin := []
  tout := []
  ready := true
  spi :=
    { ctrl := { mode := 0, burstLen := 0, cmdLen := 0 }
      status := { busy := false, rxLevel := 0, txLevel := 0 }
      cmdFifo := []
      txFifo := []
      rxWords := []
      statusNext := []
      drawn := 0 }
  trace := []
  params := Config.params

end Sys2Proof.Machine
end

