-- ==== Sys2Proof/Machine/Constants.lean ====
section
/-! DEFINITION. The read-only constants of the block (spec/10_state.md R35) and the parameters read as the rules use them
(spec/00_scope.md R8). -/

namespace Sys2Proof.Machine

/-- `ACK` (R35). -/
def ack : Byte := 0x06#8

/-- `NAK` (R35). -/
def nak : Byte := 0x15#8

/-- `BUS_SPI`: the bus-type mask's single bit (R35). -/
def busSpi : Byte := 0x08#8

/-- `IFACE_VERSION` (R35). -/
def ifaceVersion : U16 := 0x0001#16

/-- `SERBUF_SIZE` (R35). -/
def serbufSize : U16 := 0xFFFF#16

/-- `MODE_TX = 3` and `MODE_RX = 5`: the control register's mode field (R25, R35). -/
def Mode.field : Mode → BitVec 3
  | .tx => 3#3
  | .rx => 5#3

/-- `CMDMAP`: 32 bytes, 4 significant (R35, R212). -/
def cmdmap : List Byte := [0x3F#8, 0x00#8, 0x2D#8, 0x00#8] ++ List.replicate 28 0x00#8

end Sys2Proof.Machine

namespace Sys2Proof

/-- `PGM_NAME = P_PGM_NAME`: 16 bytes, the characters and then NULs (R35, R213, D21). -/
def Params.pgmName (p : Params) : List Byte :=
  (p.pgmNameCodes.take 16).map (fun c => BitVec.ofNat 8 (c.val + 1)) ++
    List.replicate (16 - p.pgmNameCodes.length) 0x00#8

/-- `P_TX_HWM`, at least 1 (R39, D6). -/
def Params.txHwm (p : Params) : Nat := p.txHwmLessOne + 1

/-- `P_REG_ADDR`: the bus address of a register, 4-aligned (R36, R69, D29). -/
def Params.regAddr (p : Params) : Machine.SpiReg → Nat
  | .ctrl => 4 * p.regIndices.ctrl
  | .status => 4 * p.regIndices.status
  | .cmdFifo => 4 * p.regIndices.cmdFifo
  | .dataFifo => 4 * p.regIndices.dataFifo

end Sys2Proof
end

