-- ==== Sys2Proof/Machine/Ops.lean ====
section
/-! DEFINITION. The access primitives (spec/00_scope.md R10, spec/20_memory.md R61 to R64), each performing exactly one
event, and the shared operations of the rules: queueing a reply, answering a protocol error (spec/60_exceptions.md R246) and
returning from it (R247), and raising a model fault (R243). -/

namespace Sys2Proof.Machine

/-- R7: performing an event appends it to the observation. -/
def State.emit (s : State) (e : Event) : State := { s with trace := s.trace ++ [e] }

/-- `Get()` (R61): the byte taken and the state after, or `none` to hold while `tin` is empty. -/
def State.getByte (s : State) : Option (Byte × State) :=
  match s.tin with
  | [] => none
  | b :: rest => some (b, ({ s with tin := rest }).emit (.get b))

/-- `Put(b)` (R62): the state after, or `none` to hold while the transport does not accept. -/
def State.putByte (s : State) (b : Byte) : Option State :=
  if s.ready then some (({ s with tout := s.tout ++ [b] }).emit (.put b)) else none

/-- The raw value the next read of `STATUS` returns: the SPI master's choice (R43, R63), free where none is scripted. -/
def State.nextStatus (s : State) : Word :=
  match s.spi.statusNext with
  | [] => Config.freeStatus s.spi.drawn
  | v :: _ => v

/-- The word the next read of `DATA_FIFO` returns: the SPI master's choice (R43, R63, R178 (h)), free where the master
holds no word. -/
def State.nextData (s : State) : Word :=
  match s.spi.rxWords with
  | [] => Config.freeData s.spi.drawn
  | v :: _ => v

/-- `MemRead(STATUS, 4)` (R63): never holds, has no effect on any field (R70, D5), and uses up the master's answer. -/
def State.readStatus (s : State) : State :=
  ({ s with
    spi :=
      match s.spi.statusNext with
      | [] => { s.spi with drawn := s.spi.drawn + 1 }
      | _ :: rest => { s.spi with statusNext := rest } }).emit (.rdStatus s.nextStatus)

/-- `MemRead(DATA_FIFO, 4)` (R63): never holds, and pops one word (R70). -/
def State.readData (s : State) : State :=
  ({ s with
    spi :=
      match s.spi.rxWords with
      | [] => { s.spi with drawn := s.spi.drawn + 1 }
      | _ :: rest => { s.spi with rxWords := rest } }).emit (.rdDataFifo s.nextData)

/-- `CtrlWrite(mode, burst_len, cmd_len)` (R64 (a)): all three fields at once (R71, D4); never holds. -/
def State.writeCtrl (s : State) (mode : BitVec 3) (burstLen cmdLen : U24) : State :=
  ({ s with spi := { s.spi with ctrl := ⟨mode, burstLen, cmdLen⟩ } }).emit (.wrCtrl mode burstLen cmdLen)

/-- `MemWrite(CMD_FIFO, 1, b)` (R64 (b)): appends to the command queue (R40); never holds. -/
def State.writeCmdFifo (s : State) (b : Byte) : State :=
  ({ s with spi := { s.spi with cmdFifo := s.spi.cmdFifo ++ [b] } }).emit (.wrCmdFifo b)

/-- `MemWrite(DATA_FIFO, 4, w)` (R64 (c)): pushes one word (R70); never holds. -/
def State.writeDataFifo (s : State) (w : Word) : State :=
  ({ s with spi := { s.spi with txFifo := s.spi.txFifo ++ [w] } }).emit (.wrDataFifo w)

/-- `phase <- S` (R9). -/
def State.setPhase (s : State) (p : Phase) : State := { s with phase := p }

/-- The phase a value of `after` names (R32). -/
def After.toPhase : After → Phase
  | .awaitOpcode => .awaitOpcode
  | .spiCtrl => .spiCtrl

/-- R25, R32, R121: queue a reply and enter the reply serializer. -/
def State.queueReply (s : State) (r : List Byte) (a : After) : State :=
  { s with phase := .reply, regs := { s.regs with reply := some r, after := some a } }

/-- Taking a protocol error (R240, R246): nothing is saved, no mode and no vector changes; the erring command queues one
`NAK`. The return from it is every command's (R247): `after` names the dispatch loop, and no error state persists (R244). -/
def State.protocolError (s : State) : State := s.queueReply [nak] .awaitOpcode

/-- `raise Fault(name)` (R10, R243): enter `FAULTED` and record the name, performing no event. There is no return. -/
def State.raise (s : State) (f : FaultName) : State := { s with phase := .faulted, fault := some f }

end Sys2Proof.Machine
end

