-- ==== Sys2Proof/Machine/Dispatcher.lean ====
section
/-! DEFINITION. The dispatcher's own commands (spec/40_dispatcher.md): `NOP`, `SYNCNOP`, `S_BUSTYPE`, `S_PIN_STATE`, and the
reply serializer. A meaning is what its command does once its opcode and fixed arguments are taken: the action of
R121's table, or the after-arguments action of R122. The bytes it queues leave in `REPLY` (`stepReply`). -/

namespace Sys2Proof.Machine

/-- R126: `Put(ACK)`. -/
def execNop (s : State) : Host.Outcome State Fault Refusal := .next (s.queueReply [ack] .awaitOpcode)

/-- R127: `Put(NAK); Put(ACK)`, whatever the state of the host stream. -/
def execSyncnop (s : State) : Host.Outcome State Fault Refusal := .next (s.queueReply [nak, ack] .awaitOpcode)

/-- R128: `ACK` when `a0` equals `BUS_SPI`, else the protocol error `E_BUSTYPE_UNSUPPORTED` (R241). Nothing is stored. -/
def execSBustype (a0 : Byte) (s : State) : Host.Outcome State Fault Refusal :=
  if a0 = busSpi then .next (s.queueReply [ack] .awaitOpcode) else .next s.protocolError

/-- R129: the value is discarded, `Put(ACK)`. Nothing is stored and no pin is driven. -/
def execSPinState (_a0 : Byte) (s : State) : Host.Outcome State Fault Refusal :=
  .next (s.queueReply [ack] .awaitOpcode)

/-- R123: one step of the reply serializer. Its registers are read before the byte is put, so that an unwritten one
performs no event (R33, R243). -/
def stepReply (s : State) : Host.Outcome State Fault Refusal :=
  match s.regs.reply, s.regs.after with
  | some [], _ => .fault .replyQueueEmpty
  | some (b :: rest), some after =>
    match s.putByte b with
    | none => .next s
    | some t =>
      .next { t with
        regs := { t.regs with reply := some rest }
        phase := if rest = [] then after.toPhase else .reply }
  | _, _ => .next (s.raise .unwrittenRead)

end Sys2Proof.Machine
end

