-- ==== Sys2Proof/Machine/Operands.lean ====
section
/-! DEFINITION. The operand forms: reply integers (spec/20_memory.md R66), the byte lanes of a data word (R67) and the size
of a chunk of the burst (spec/41_spi_transaction.md R175). The 24-bit length fields are in Decode.lean (R96). -/

namespace Sys2Proof.Machine

/-- R66, R98: a 16-bit reply value as two bytes, least significant first. -/
def bytesOfU16 (v : U16) : List Byte := [v.extractLsb' 0 8, v.extractLsb' 8 8]

/-- R67: byte lane `k` of a data word, bits `8k+7:8k`. -/
def lane (w : Word) (k : Nat) : Byte := w.extractLsb' (8 * k) 8

/-- R168: a data word with byte `b` put into lane `k` by OR. -/
def orLane (w : Word) (k : Nat) (b : Byte) : Word := w ||| b.setWidth 32 <<< (8 * k)

/-- R29, R175: the number of significant bytes of the next data word, `min(4, rem)`. -/
def chunk (rem : U24) : Nat := min 4 rem.toNat

/-- R28, R169, R172: `rem - n`. -/
def remAfter (rem : U24) (n : Nat) : U24 := rem - BitVec.ofNat 24 n

end Sys2Proof.Machine
end

