-- ==== Sys2Proof/Machine/Query.lean ====
section
/-! DEFINITION. The query responder (spec/42_query_responder.md): five commands that queue a constant reply. They read only
the constants of R35 and perform no register-file access (R216). -/

namespace Sys2Proof.Machine

/-- The reply of a query: `ACK` and its constant bytes (R210 to R215). -/
def State.answer (s : State) (bytes : List Byte) : State := s.queueReply (ack :: bytes) .awaitOpcode

/-- R210: `ACK` and the 16-bit interface version. -/
def execQIface (s : State) : Host.Outcome State Fault Refusal := .next (s.answer (bytesOfU16 ifaceVersion))

/-- R211: `ACK` and the 32 bytes of the capability bitmap. -/
def execQCmdmap (s : State) : Host.Outcome State Fault Refusal := .next (s.answer cmdmap)

/-- R213: `ACK` and the 16 bytes of the programmer name. -/
def execQPgmname (s : State) : Host.Outcome State Fault Refusal := .next (s.answer s.params.pgmName)

/-- R214: `ACK` and the 16-bit serial buffer size. -/
def execQSerbuf (s : State) : Host.Outcome State Fault Refusal := .next (s.answer (bytesOfU16 serbufSize))

/-- R215: `ACK` and the bus-type mask. -/
def execQBustype (s : State) : Host.Outcome State Fault Refusal := .next (s.answer [busSpi])

end Sys2Proof.Machine
end

