-- ==== Sys2Proof/Machine/Flags.lean ====
section
/-! DEFINITION. The only flags of the design are the fields of `STATUS` (spec/10_state.md R42): how a raw status word is
decoded and the three tests the engine makes on it. No command writes a flag. -/

namespace Sys2Proof

/-- `P_STATUS_DEC`: the fields of a raw status word (R10, R38). -/
def Params.decodeStatus (p : Params) (v : Word) : Status := (p.statusRows.lookup v).getD p.statusElse

/-- R39: the transmit FIFO has spare capacity, `tx_level < P_TX_HWM`, strictly. -/
def Params.hasCapacity (p : Params) (v : Word) : Bool := decide ((p.decodeStatus v).txLevel < p.txHwm)

/-- R170: the receive side shows data, `rx_level != 0`. -/
def Params.hasData (p : Params) (v : Word) : Bool := (p.decodeStatus v).rxLevel != 0

/-- R173: the SPI master shows `busy`. -/
def Params.isBusy (p : Params) (v : Word) : Bool := (p.decodeStatus v).busy

end Sys2Proof
end

