-- ==== Sys2Proof/Machine/Spi.lean ====
section
/-! DEFINITION. `O_SPIOP` and the register-level transaction engine (spec/41_spi_transaction.md): the command's action once
its six length bytes are in (R161 to R163), and one step of the engine for each of its phases (R165 to R173). A step reads
its registers, and makes the checks of R180 and R181, before it performs its event (R243, R245); a step that holds changes
nothing (R61, R62). -/

namespace Sys2Proof.Machine

/-- R161 to R163: the lengths, the direction (`rl` alone decides it), the burst length, and the early acknowledgment. The
transaction itself is the steps below, which the reply serializer enters through `after = SPI_CTRL`. -/
def execOSpiop (cl rl : U24) (s : State) : Host.Outcome State Fault Refusal :=
  .next (({ s with
    regs := { s.regs with
      cl := some cl
      rl := some rl
      mode := some (if rl = 0#24 then .tx else .rx)
      len := some (if rl = 0#24 then cl else rl) } }).queueReply [ack] .spiCtrl)

/-- R181: `P_CTRL_LEN_BITS = k` is given and a length does not fit in `k` bits. -/
def ctrlOverflows (p : Params) (len cl : U24) : Bool :=
  match p.ctrlLenBits with
  | none => false
  | some k => decide (2 ^ k ≤ len.toNat) || decide (2 ^ k ≤ cl.toNat)

/-- R180: `P_CMD_FIFO_DEPTH = d` is given and `d` command bytes have been written in this operation. -/
def cmdFifoFull (p : Params) (cl cmdRem : U24) : Bool :=
  match p.cmdFifoDepth with
  | none => false
  | some d => decide (cl.toNat - cmdRem.toNat = d)

/-- R165, R166: the phase after the last command byte. -/
def burstPhase (mode : Mode) (rem : U24) : Phase :=
  match mode with
  | .tx => if rem = 0#24 then .busyPoll else .txPoll
  | .rx => .rxPoll

/-- R165: program the control register. -/
def stepSpiCtrl (s : State) : State :=
  match s.regs.mode, s.regs.len, s.regs.cl with
  | some mode, some len, some cl =>
    if ctrlOverflows s.params len cl then s.raise .ctrlFieldOverflow
    else
      let t := s.writeCtrl mode.field len cl
      { t with
        regs := { t.regs with cmdRem := some cl, rem := some len }
        phase := if cl = 0#24 then burstPhase mode len else .cmdGet }
  | _, _, _ => s.raise .unwrittenRead

/-- R166: take one command byte from the host. -/
def stepCmdGet (s : State) : State :=
  match s.getByte with
  | none => s
  | some (b, t) => { t with regs := { t.regs with cbyte := some b }, phase := .cmdPut }

/-- R166: push the command byte into the command FIFO. -/
def stepCmdPut (s : State) : State :=
  match s.regs.cbyte, s.regs.cmdRem, s.regs.cl, s.regs.mode, s.regs.rem with
  | some b, some cmdRem, some cl, some mode, some rem =>
    if cmdFifoFull s.params cl cmdRem then s.raise .cmdFifoOverrun
    else
      let t := s.writeCmdFifo b
      { t with
        regs := { t.regs with cmdRem := some (cmdRem - 1#24) }
        phase := if cmdRem - 1#24 = 0#24 then burstPhase mode rem else .cmdGet }
  | _, _, _, _, _ => s.raise .unwrittenRead

/-- R167: poll for transmit capacity. -/
def stepTxPoll (s : State) : State :=
  match s.regs.rem with
  | some rem =>
    let t := s.readStatus
    if s.params.hasCapacity s.nextStatus then
      { t with
        regs := { t.regs with n := some (chunk rem), j := some 0, word := some 0#32 }
        phase := .txFill }
    else t
  | none => s.raise .unwrittenRead

/-- R168: take one data byte and pack it into its lane. -/
def stepTxFill (s : State) : State :=
  match s.getByte with
  | none => s
  | some (b, t) =>
    match s.regs.word, s.regs.j, s.regs.n with
    | some word, some j, some n =>
      { t with
        regs := { t.regs with word := some (orLane word j b), j := some (j + 1) }
        phase := if j + 1 = n then .txPush else .txFill }
    | _, _, _ => s.raise .unwrittenRead

/-- R169: push the data word. -/
def stepTxPush (s : State) : State :=
  match s.regs.word, s.regs.rem, s.regs.n with
  | some word, some rem, some n =>
    let t := s.writeDataFifo word
    { t with
      regs := { t.regs with rem := some (remAfter rem n) }
      phase := if remAfter rem n = 0#24 then .busyPoll else .txPoll }
  | _, _, _ => s.raise .unwrittenRead

/-- R170: poll for received data. -/
def stepRxPoll (s : State) : State :=
  let t := s.readStatus
  if s.params.hasData s.nextStatus then t.setPhase .rxPop else t

/-- R171: pop one data word. -/
def stepRxPop (s : State) : State :=
  match s.regs.rem with
  | some rem =>
    let t := s.readData
    { t with
      regs := { t.regs with word := some s.nextData, n := some (chunk rem), j := some 0 }
      phase := .rxEmit }
  | none => s.raise .unwrittenRead

/-- R172: put one byte lane of the received word. -/
def stepRxEmit (s : State) : State :=
  match s.regs.word, s.regs.j, s.regs.n, s.regs.rem with
  | some word, some j, some n, some rem =>
    match s.putByte (lane word j) with
    | none => s
    | some t =>
      if j + 1 = n then
        { t with
          regs := { t.regs with j := some (j + 1), rem := some (remAfter rem n) }
          phase := if remAfter rem n = 0#24 then .busyPoll else .rxPoll }
      else { t with regs := { t.regs with j := some (j + 1) } }
  | _, _, _, _ => s.raise .unwrittenRead

/-- R173: poll until the SPI master is not busy; the command is then complete (R174). -/
def stepBusyPoll (s : State) : State :=
  let t := s.readStatus
  if s.params.isBusy s.nextStatus then t else t.setPhase .awaitOpcode

end Sys2Proof.Machine
end

