-- ==== Sys2Proof/Machine/Unknown.lean ====
section
/-! DEFINITION. `UNKNOWN` (spec/40_dispatcher.md R130), one meaning per row of the opcode table: the protocol error
`E_UNKNOWN_OPCODE` (spec/60_exceptions.md R241), one `NAK` and no further byte taken. The opcode is not echoed. -/

namespace Sys2Proof.Machine

/-- R130, the row `0x06` to `0x07`. -/
def execUnknown06 (_op : Byte) (s : State) : Host.Outcome State Fault Refusal := .next s.protocolError

/-- R93, R130, the row `0x08` to `0x0F`. -/
def execUnknown08 (_op : Byte) (s : State) : Host.Outcome State Fault Refusal := .next s.protocolError

/-- R130, the row `0x11`. -/
def execUnknown11 (s : State) : Host.Outcome State Fault Refusal := .next s.protocolError

/-- R130, the row `0x14`. -/
def execUnknown14 (s : State) : Host.Outcome State Fault Refusal := .next s.protocolError

/-- R130, the row `0x16` to `0x17`. -/
def execUnknown16 (_op : Byte) (s : State) : Host.Outcome State Fault Refusal := .next s.protocolError

/-- R130, the row `0x18` to `0x1F`. -/
def execUnknown18 (_op : Byte) (s : State) : Host.Outcome State Fault Refusal := .next s.protocolError

/-- R130, the row `0x20` to `0x3F`. -/
def execUnknown20 (_op : Byte) (s : State) : Host.Outcome State Fault Refusal := .next s.protocolError

/-- R130, the row `0x40` to `0x7F`. -/
def execUnknown40 (_op : Byte) (s : State) : Host.Outcome State Fault Refusal := .next s.protocolError

/-- R130, the row `0x80` to `0xFF`. -/
def execUnknown80 (_op : Byte) (s : State) : Host.Outcome State Fault Refusal := .next s.protocolError

end Sys2Proof.Machine
end

