-- ==== Sys2Proof/Syntax.lean ====
section
/-! DEFINITION. The command set (spec/30_encoding.md R92, spec/opcode_table.json): one constructor per row of the opcode table,
with the row's fixed arguments (R95) as its operands. The nine rows of mnemonic `UNKNOWN` split the 246 other byte values
by their leading bits; a row of more than one value carries the opcode byte it was read from (log entry 3). -/

namespace Sys2Proof

/-- The commands of the wire protocol, in the order of spec/opcode_table.json. -/
inductive Instr where
  /-- `NOP`, opcode `0x00`, format F0 (R126). -/
  | nop
  /-- `Q_IFACE`, opcode `0x01`, format F0 (R210). -/
  | qIface
  /-- `Q_CMDMAP`, opcode `0x02`, format F0 (R211). -/
  | qCmdmap
  /-- `Q_PGMNAME`, opcode `0x03`, format F0 (R213). -/
  | qPgmname
  /-- `Q_SERBUF`, opcode `0x04`, format F0 (R214). -/
  | qSerbuf
  /-- `Q_BUSTYPE`, opcode `0x05`, format F0 (R215). -/
  | qBustype
  /-- `SYNCNOP`, opcode `0x10`, format F0 (R127). -/
  | syncnop
  /-- `S_BUSTYPE a0`, opcode `0x12`, format F1: `a0` is the requested bus type (R97, R128). -/
  | sBustype (a0 : Byte)
  /-- `O_SPIOP cl, rl`, opcode `0x13`, format FS: the command length and the read length (R96, R160). -/
  | oSpiop (cl rl : U24)
  /-- `S_PIN_STATE a0`, opcode `0x15`, format F1: `a0` is the requested pin state (R97, R129). -/
  | sPinState (a0 : Byte)
  /-- `UNKNOWN`, the values `0x06` and `0x07` (R94, R130). -/
  | unknown06 (op : Byte)
  /-- `UNKNOWN`, the values `0x08` to `0x0F`; `0x09` to `0x0F` are the reserved operation-buffer opcodes (R93, R130). -/
  | unknown08 (op : Byte)
  /-- `UNKNOWN`, the value `0x11` (R94, R130). -/
  | unknown11
  /-- `UNKNOWN`, the value `0x14` (R94, R130). -/
  | unknown14
  /-- `UNKNOWN`, the values `0x16` and `0x17` (R94, R130). -/
  | unknown16 (op : Byte)
  /-- `UNKNOWN`, the values `0x18` to `0x1F` (R94, R130). -/
  | unknown18 (op : Byte)
  /-- `UNKNOWN`, the values `0x20` to `0x3F` (R94, R130). -/
  | unknown20 (op : Byte)
  /-- `UNKNOWN`, the values `0x40` to `0x7F` (R94, R130). -/
  | unknown40 (op : Byte)
  /-- `UNKNOWN`, the values `0x80` to `0xFF` (R94, R130). -/
  | unknown80 (op : Byte)
deriving DecidableEq, Repr

/-- The mnemonic of R101 (spec/opcode_table.json's spelling). -/
def Instr.mnemonic : Instr → String
  | .nop => "NOP"
  | .qIface => "Q_IFACE"
  | .qCmdmap => "Q_CMDMAP"
  | .qPgmname => "Q_PGMNAME"
  | .qSerbuf => "Q_SERBUF"
  | .qBustype => "Q_BUSTYPE"
  | .syncnop => "SYNCNOP"
  | .sBustype _ => "S_BUSTYPE"
  | .oSpiop _ _ => "O_SPIOP"
  | .sPinState _ => "S_PIN_STATE"
  | .unknown06 _ => "UNKNOWN"
  | .unknown08 _ => "UNKNOWN"
  | .unknown11 => "UNKNOWN"
  | .unknown14 => "UNKNOWN"
  | .unknown16 _ => "UNKNOWN"
  | .unknown18 _ => "UNKNOWN"
  | .unknown20 _ => "UNKNOWN"
  | .unknown40 _ => "UNKNOWN"
  | .unknown80 _ => "UNKNOWN"

/-- The commands that decode to `UNKNOWN` (R94, R130). -/
def Instr.isUnknown : Instr → Bool
  | .nop => false
  | .qIface => false
  | .qCmdmap => false
  | .qPgmname => false
  | .qSerbuf => false
  | .qBustype => false
  | .syncnop => false
  | .sBustype _ => false
  | .oSpiop _ _ => false
  | .sPinState _ => false
  | .unknown06 _ => true
  | .unknown08 _ => true
  | .unknown11 => true
  | .unknown14 => true
  | .unknown16 _ => true
  | .unknown18 _ => true
  | .unknown20 _ => true
  | .unknown40 _ => true
  | .unknown80 _ => true

end Sys2Proof
end

