-- ==== Sys2Proof/Machine/Dispatch.lean ====
section
/-! DEFINITION. The dispatch: the meaning of each command of spec/opcode_table.json, once its opcode and its fixed arguments
are taken (spec/40_dispatcher.md R121, R122). -/

namespace Sys2Proof.Machine

def exec (i : Instr) (s : State) : Host.Outcome State Fault Refusal :=
  match i with
  | .nop => Sys2Proof.Machine.execNop s
  | .qIface => Sys2Proof.Machine.execQIface s
  | .qCmdmap => Sys2Proof.Machine.execQCmdmap s
  | .qPgmname => Sys2Proof.Machine.execQPgmname s
  | .qSerbuf => Sys2Proof.Machine.execQSerbuf s
  | .qBustype => Sys2Proof.Machine.execQBustype s
  | .syncnop => Sys2Proof.Machine.execSyncnop s
  | .sBustype a0 => Sys2Proof.Machine.execSBustype a0 s
  | .oSpiop cl rl => Sys2Proof.Machine.execOSpiop cl rl s
  | .sPinState a0 => Sys2Proof.Machine.execSPinState a0 s
  | .unknown06 op => Sys2Proof.Machine.execUnknown06 op s
  | .unknown08 op => Sys2Proof.Machine.execUnknown08 op s
  | .unknown11 => Sys2Proof.Machine.execUnknown11 s
  | .unknown14 => Sys2Proof.Machine.execUnknown14 s
  | .unknown16 op => Sys2Proof.Machine.execUnknown16 op s
  | .unknown18 op => Sys2Proof.Machine.execUnknown18 op s
  | .unknown20 op => Sys2Proof.Machine.execUnknown20 op s
  | .unknown40 op => Sys2Proof.Machine.execUnknown40 op s
  | .unknown80 op => Sys2Proof.Machine.execUnknown80 op s

end Sys2Proof.Machine
end

