-- ==== Sys2Proof/WellFormed.lean ====
section
/-! DEFINITION. Well-formedness: an `UNKNOWN` command carries an opcode byte of its own row, and a frame carries exactly the
payload its lengths ask for (spec/30_encoding.md R94, R95, R101). The operands `a0`, `cl` and `rl` need no check: every
value of their width is legal (R96, R97). -/

namespace Sys2Proof

/-- A command is well-formed when the opcode byte it carries, if any, is one of its row's values
(spec/opcode_table.json's mask and match). -/
def Instr.wf : Instr → Bool
  | .nop => true
  | .qIface => true
  | .qCmdmap => true
  | .qPgmname => true
  | .qSerbuf => true
  | .qBustype => true
  | .syncnop => true
  | .sBustype _ => true
  | .oSpiop _ _ => true
  | .sPinState _ => true
  | .unknown06 op => op &&& 0xFE#8 == 0x06#8
  | .unknown08 op => op &&& 0xF8#8 == 0x08#8
  | .unknown11 => true
  | .unknown14 => true
  | .unknown16 op => op &&& 0xFE#8 == 0x16#8
  | .unknown18 op => op &&& 0xF8#8 == 0x18#8
  | .unknown20 op => op &&& 0xE0#8 == 0x20#8
  | .unknown40 op => op &&& 0xC0#8 == 0x40#8
  | .unknown80 op => op &&& 0x80#8 == 0x80#8

/-- The command bytes of a command's payload (R90: the variable payload, `O_SPIOP` only; R95). -/
def Instr.cmdLength : Instr → Nat
  | .oSpiop cl _ => cl.toNat
  | .nop | .qIface | .qCmdmap | .qPgmname | .qSerbuf | .qBustype | .syncnop | .sBustype _ | .sPinState _
  | .unknown06 _ | .unknown08 _ | .unknown11 | .unknown14 | .unknown16 _ | .unknown18 _ | .unknown20 _
  | .unknown40 _ | .unknown80 _ => 0

/-- The data bytes of a command's payload: `cl` of them, and only when `rl = 0` (R95, R163). -/
def Instr.dataLength : Instr → Nat
  | .oSpiop cl rl => if rl = 0#24 then cl.toNat else 0
  | .nop | .qIface | .qCmdmap | .qPgmname | .qSerbuf | .qBustype | .syncnop | .sBustype _ | .sPinState _
  | .unknown06 _ | .unknown08 _ | .unknown11 | .unknown14 | .unknown16 _ | .unknown18 _ | .unknown20 _
  | .unknown40 _ | .unknown80 _ => 0

/-- A whole frame (R90, R101): a command with its fixed arguments, and the variable payload that follows them. -/
structure Frame where
  /-- the command and its fixed arguments -/
  instr : Instr
  /-- the command bytes, `cmd=[c0, ...]` -/
  cmd : List Byte
  /-- the data bytes, `data=[d0, ...]` -/
  data : List Byte
deriving DecidableEq, Repr

/-- R101: `cmd` has exactly `cl` bytes, and `data` exactly `cl` bytes when `rl = 0` and none otherwise. -/
def Frame.wf (f : Frame) : Bool :=
  f.instr.wf && f.cmd.length == f.instr.cmdLength && f.data.length == f.instr.dataLength

end Sys2Proof
end

