-- ==== Sys2Proof/Decode.lean ====
section
/-! DEFINITION. The decoder and the encoder (spec/30_encoding.md). A command is read from its opcode byte (R91, R92) and
the fixed arguments of its format (R95); multi-byte fields are little-endian (R96). Every opcode byte decodes to a command
(R94): the decoder answers an error only where bytes are missing. -/

namespace Sys2Proof

/-- R96: a 24-bit length field from its three wire bytes in arrival order, least significant first. -/
def u24OfBytes (a b c : Byte) : U24 :=
  a.setWidth 24 ||| b.setWidth 24 <<< 8 ||| c.setWidth 24 <<< 16

/-- R96, R101: the three wire bytes of a 24-bit length field, least significant first. -/
def bytesOfU24 (v : U24) : List Byte :=
  [v.extractLsb' 0 8, v.extractLsb' 8 8, v.extractLsb' 16 8]

/-- Why a byte sequence holds no whole command yet. -/
inductive DecodeError where
  /-- there is no opcode byte -/
  | noOpcode
  /-- the opcode is there, and some of its fixed arguments are not (R95, R124: not an error on the wire, the engine waits) -/
  | missingArguments
  /-- the opcode byte is of no row: never answered (R94; `decodeOpcode_isSome`) -/
  | noRow
deriving DecidableEq, Repr

/-- The number of fixed argument bytes of an opcode (R92, R95, R121): one for `0x12` and `0x15`, six for `0x13`. -/
def fixedArgs (op : Byte) : Nat :=
  if op = 0x12#8 then 1 else if op = 0x13#8 then 6 else if op = 0x15#8 then 1 else 0

/-- The commands without arguments (format F0), by their full opcode byte (R91, R92, R94). -/
def decodeOpcode (op : Byte) : Option Instr :=
  if op = 0x00#8 then some .nop
  else if op = 0x01#8 then some .qIface
  else if op = 0x02#8 then some .qCmdmap
  else if op = 0x03#8 then some .qPgmname
  else if op = 0x04#8 then some .qSerbuf
  else if op = 0x05#8 then some .qBustype
  else if op = 0x10#8 then some .syncnop
  else if op &&& 0xFE#8 = 0x06#8 then some (.unknown06 op)
  else if op &&& 0xF8#8 = 0x08#8 then some (.unknown08 op)
  else if op = 0x11#8 then some .unknown11
  else if op = 0x14#8 then some .unknown14
  else if op &&& 0xFE#8 = 0x16#8 then some (.unknown16 op)
  else if op &&& 0xF8#8 = 0x18#8 then some (.unknown18 op)
  else if op &&& 0xE0#8 = 0x20#8 then some (.unknown20 op)
  else if op &&& 0xC0#8 = 0x40#8 then some (.unknown40 op)
  else if op &&& 0x80#8 = 0x80#8 then some (.unknown80 op)
  else none

/-- R92, R95, R96: the command at the head of a byte sequence and the bytes after it. -/
def decode : List Byte → Except DecodeError (Instr × List Byte)
  | [] => .error .noOpcode
  | op :: rest =>
    if op = 0x12#8 then
      match rest with
      | a0 :: rest => .ok (.sBustype a0, rest)
      | [] => .error .missingArguments
    else if op = 0x13#8 then
      match rest with
      | c0 :: c1 :: c2 :: r0 :: r1 :: r2 :: rest =>
        .ok (.oSpiop (u24OfBytes c0 c1 c2) (u24OfBytes r0 r1 r2), rest)
      | _ => .error .missingArguments
    else if op = 0x15#8 then
      match rest with
      | a0 :: rest => .ok (.sPinState a0, rest)
      | [] => .error .missingArguments
    else
      match decodeOpcode op with
      | some i => .ok (i, rest)
      | none => .error .noRow

/-- The opcode byte of a command (R92). -/
def Instr.opcode : Instr → Byte
  | .nop => 0x00#8
  | .qIface => 0x01#8
  | .qCmdmap => 0x02#8
  | .qPgmname => 0x03#8
  | .qSerbuf => 0x04#8
  | .qBustype => 0x05#8
  | .syncnop => 0x10#8
  | .sBustype _ => 0x12#8
  | .oSpiop _ _ => 0x13#8
  | .sPinState _ => 0x15#8
  | .unknown06 op => op
  | .unknown08 op => op
  | .unknown11 => 0x11#8
  | .unknown14 => 0x14#8
  | .unknown16 op => op
  | .unknown18 op => op
  | .unknown20 op => op
  | .unknown40 op => op
  | .unknown80 op => op

/-- The fixed argument bytes of a command, in wire order (R95). -/
def Instr.argBytes : Instr → List Byte
  | .sBustype a0 => [a0]
  | .oSpiop cl rl => bytesOfU24 cl ++ bytesOfU24 rl
  | .sPinState a0 => [a0]
  | .nop | .qIface | .qCmdmap | .qPgmname | .qSerbuf | .qBustype | .syncnop
  | .unknown06 _ | .unknown08 _ | .unknown11 | .unknown14 | .unknown16 _ | .unknown18 _ | .unknown20 _
  | .unknown40 _ | .unknown80 _ => []

/-- R95, R101: the opcode byte and the fixed arguments of a command, in wire order. -/
def encode (i : Instr) : List Byte := i.opcode :: i.argBytes

/-- R95, R101: the bytes of a whole frame, the payload after the fixed arguments. -/
def Frame.bytes (f : Frame) : List Byte := encode f.instr ++ f.cmd ++ f.data

/-- R99: the frame at the head of a byte sequence; its length is known once the fixed arguments are in. -/
def decodeFrame (bs : List Byte) : Except DecodeError (Frame × List Byte) :=
  match decode bs with
  | .error e => .error e
  | .ok (i, rest) =>
    if rest.length < i.cmdLength + i.dataLength then .error .missingArguments
    else .ok (⟨i, rest.take i.cmdLength, (rest.drop i.cmdLength).take i.dataLength⟩,
      rest.drop (i.cmdLength + i.dataLength))

/-- R99, R177: the bytes the engine takes from the host for one frame of this command, the opcode included. -/
def Instr.frameLength (i : Instr) : Nat := 1 + i.argBytes.length + i.cmdLength + i.dataLength

/-- R99: the bytes the engine puts to the host for one frame of this command. -/
def Instr.replyLength : Instr → Nat
  | .nop => 1
  | .qIface => 3
  | .qCmdmap => 33
  | .qPgmname => 17
  | .qSerbuf => 3
  | .qBustype => 2
  | .syncnop => 2
  | .sBustype _ => 1
  | .oSpiop _ rl => 1 + rl.toNat
  | .sPinState _ => 1
  | .unknown06 _ => 1
  | .unknown08 _ => 1
  | .unknown11 => 1
  | .unknown14 => 1
  | .unknown16 _ => 1
  | .unknown18 _ => 1
  | .unknown20 _ => 1
  | .unknown40 _ => 1
  | .unknown80 _ => 1

/-- The longest command without its payload: the opcode and six fixed arguments (R95). -/
def maxCommandBytes : Nat := 7

/-- The bytes of a table word (bit 0 is the least significant bit of the first byte), zero above `nbits`, laid out in
wire order up to the longest command. -/
def bytesOfTableWord (nbits w : Nat) : List Byte :=
  (List.range maxCommandBytes).map fun k => BitVec.ofNat 8 (w % 2 ^ nbits / 2 ^ (8 * k))

/-- The instruction the decoder reads from a word of spec/opcode_table.json. -/
def decodeTableWord (nbits w : Nat) : Option Instr :=
  match decode (bytesOfTableWord nbits w) with
  | .ok (i, _) => some i
  | .error _ => none

end Sys2Proof
end

