-- ==== Sys2Proof/Machine/Fetch.lean ====
section
/-! DEFINITION. Fetching a command from the transport (spec/40_dispatcher.md R120 to R122): the opcode in `AWAIT_OPCODE`, the
fixed arguments in `ARG`, one byte per step. Commands are bytes taken once and never refetched (spec/20_memory.md R75). -/

namespace Sys2Proof.Machine

/-- What a fetching step comes to. -/
inductive FetchResult where
  /-- no command is complete: the state after the step (a hold, one more byte taken, or a fault raised) -/
  | waiting (s : State)
  /-- the last byte of a command has been taken: the command, and the state it acts on in the same step -/
  | ready (i : Instr) (s : State)
  /-- the spec gives no rule for the state -/
  | stop (f : Fault)
deriving DecidableEq, Repr

/-- R120, R121: take an opcode. A new command starts with every other register unwritten (R33, R34; log entry 5). A
command without arguments acts at once; one with arguments sets `args <- []`, `argc` and enters `ARG`. -/
def fetchOpcode (s : State) : FetchResult :=
  match s.getByte with
  | none => .waiting s
  | some (op, t) =>
    let t := { t with regs := { Regs.unwritten with op := some op } }
    if fixedArgs op = 0 then
      match decode [op] with
      | .ok (i, _) => .ready i t
      | .error _ => .stop .noAfterArguments
    else
      .waiting { t with
        regs := { t.regs with args := some [], argc := some (fixedArgs op) }
        phase := .arg }

/-- R122: take one fixed argument byte. When `argc` reaches 0 the command acts, in the same step. -/
def fetchArg (s : State) : FetchResult :=
  match s.getByte with
  | none => .waiting s
  | some (a, t) =>
    match s.regs.op, s.regs.args, s.regs.argc with
    | some op, some args, some (m + 1) =>
      let t := { t with regs := { t.regs with args := some (args ++ [a]), argc := some m } }
      if m = 0 then
        match decode (op :: (args ++ [a])) with
        | .ok (i, []) => .ready i t
        | _ => .stop .noAfterArguments
      else .waiting t
    | some _, some _, some 0 => .stop .noArgumentDue
    | _, _, _ => .waiting (s.raise .unwrittenRead)

/-- A state that fetches next the whole of a command's bytes with one byte left to take: in `AWAIT_OPCODE` with its opcode
at the head of `tin`, or in `ARG` with its last argument there (log entry 2). -/
def State.placeCommand (s : State) (bytes : List Byte) : State :=
  match bytes with
  | [] => s
  | [op] => { s with phase := .awaitOpcode, tin := op :: s.tin }
  | op :: args =>
    { s with
      phase := .arg
      regs := { Regs.unwritten with op := some op, args := some args.dropLast, argc := some 1 }
      tin := args.getLast?.toList ++ s.tin }

end Sys2Proof.Machine
end

