-- ==== Sys2Proof/Machine/Step.lean ====
section
/-! DEFINITION. One step of the engine (spec/00_scope.md R7, R11): it performs one event, or holds with the state unchanged,
or enters `FAULTED`. The phase decides which rule the step follows (spec/10_state.md R21). -/

namespace Sys2Proof.Machine

/-- A fetching step: `exec` of the command whose last byte it took, if it took one. -/
def runFetch (r : FetchResult) : Host.Outcome State Fault Refusal :=
  match r with
  | .waiting t => .next t
  | .ready i t => exec i t
  | .stop f => .fault f

/-- One step of the engine, by its phase (R21). In `FAULTED` no event is performed and the phase stays (R243). -/
def step (s : State) : Host.Outcome State Fault Refusal :=
  match s.phase with
  | .awaitOpcode => runFetch (fetchOpcode s)
  | .arg => runFetch (fetchArg s)
  | .reply => stepReply s
  | .spiCtrl => .next (stepSpiCtrl s)
  | .cmdGet => .next (stepCmdGet s)
  | .cmdPut => .next (stepCmdPut s)
  | .txPoll => .next (stepTxPoll s)
  | .txFill => .next (stepTxFill s)
  | .txPush => .next (stepTxPush s)
  | .rxPoll => .next (stepRxPoll s)
  | .rxPop => .next (stepRxPop s)
  | .rxEmit => .next (stepRxEmit s)
  | .busyPoll => .next (stepBusyPoll s)
  | .faulted => .next s

/-- A state whose very next step fetches and runs the table word's command (log entry 2). The command is placed whole:
its bytes are the decoder's instruction's, so that nothing of the word but the command is on the transport. -/
def State.withFetchWord (s : State) (nbits w : Nat) : State :=
  match decodeTableWord nbits w with
  | some i => s.placeCommand (encode i)
  | none => s.placeCommand (bytesOfTableWord nbits w)

end Sys2Proof.Machine
end

