-- ==== Sys2Proof/Machine/Environment.lean ====
section
/-! DEFINITION. What the environment agents may do between two steps of the engine (spec/00_scope.md R6,
spec/70_reset_and_hazards.md R274): the host sends and takes bytes, the transport starts or stops accepting, and the SPI
master decides what it will show and return, sets and clears its status, and takes what was pushed. None of these is a step of
the engine. -/

namespace Sys2Proof.Machine

/-- One action of the environment. -/
inductive EnvAct where
  /-- the host sends bytes: they wait in `tin`, in order (R44, R125, R274) -/
  | hostSends (bs : List Byte)
  /-- the host takes the oldest `k` bytes of `tout` (R44) -/
  | hostTakes (k : Nat)
  /-- the transport starts (`true`) or stops (`false`) accepting output (R62, R274 "output flow control") -/
  | transportAccepts (b : Bool)
  /-- the SPI master settles the raw values it will show at further status reads (R43) -/
  | spiShows (vs : List Word)
  /-- the SPI master settles the words that further data reads will pop (R43, R178 (h)) -/
  | spiReceives (ws : List Word)
  /-- the SPI master sets and clears the fields of `STATUS` (R42, R43) -/
  | spiSettles (st : Status)
  /-- the SPI master takes command bytes and data words that were pushed (R40, R43, R182) -/
  | spiTakes (bytes words : Nat)
deriving DecidableEq, Repr

/-- The state after an action of the environment: the engine state is untouched (R20). -/
def State.env (s : State) (a : EnvAct) : State :=
  match a with
  | .hostSends bs => { s with tin := s.tin ++ bs }
  | .hostTakes k => { s with tout := s.tout.drop k }
  | .transportAccepts b => { s with ready := b }
  | .spiShows vs => { s with spi := { s.spi with statusNext := s.spi.statusNext ++ vs } }
  | .spiReceives ws => { s with spi := { s.spi with rxWords := s.spi.rxWords ++ ws } }
  | .spiSettles st => { s with spi := { s.spi with status := st } }
  | .spiTakes m k =>
    { s with spi := { s.spi with cmdFifo := s.spi.cmdFifo.drop m, txFifo := s.spi.txFifo.drop k } }

/-- R270, R271: resetting the engine in any environment. It starts a new run: no event, no recorded fault, every register
unwritten; the transport and the SPI master are in whatever state they were in. -/
def State.resetEngine (s : State) : State :=
  { s with phase := .awaitOpcode, fault := none, regs := Regs.unwritten, trace := [] }

/-- Whose turn it is: the engine's, or the environment's with the action it takes. -/
inductive Turn where
  | engine
  | env (a : EnvAct)
deriving DecidableEq, Repr

/-- A run of the engine among its environment's actions, in the order given. -/
def runTurns : List Turn → State → Host.Outcome State Fault Refusal
  | [], s => .next s
  | .env a :: rest, s => runTurns rest (s.env a)
  | .engine :: rest, s =>
    match step s with
    | .next t => runTurns rest t
    | .fault f => .fault f
    | .refused r => .refused r

/-- What the environment does before each step of the engine: its actions before the first step, before the second, and so
on. With a hold repeated as often as need be (R61, R62), every order of the agents' choices is one of these (R6). -/
abbrev Schedule := Nat → List EnvAct

/-- The turns before step `k` of the engine, counting from 0: `k` steps, each after its actions, and the next one's actions. -/
def Schedule.turns (e : Schedule) : Nat → List Turn
  | 0 => (e 0).map .env
  | k + 1 => e.turns k ++ .engine :: (e (k + 1)).map .env

/-- The bytes an action sends. -/
def EnvAct.sent : EnvAct → List Byte
  | .hostSends bs => bs
  | .hostTakes _ | .transportAccepts _ | .spiShows _ | .spiReceives _ | .spiSettles _ | .spiTakes _ _ => []

/-- The bytes the host has sent by step `k` of the engine, in order. -/
def Schedule.sent (e : Schedule) : Nat → List Byte
  | 0 => (e 0).flatMap EnvAct.sent
  | k + 1 => e.sent k ++ (e (k + 1)).flatMap EnvAct.sent

end Sys2Proof.Machine
end

