-- ==== Sys2Proof/Machine/RegisterFile.lean ====
section
/-! DEFINITION. The register file seen from the bus (spec/10_state.md R36, spec/20_memory.md R64, R69) and from the SPI bus
behind the master (spec/41_spi_transaction.md R182). No step of the engine depends on either view: they say what an event
is in raw form, and what one transaction is meant to send. -/

namespace Sys2Proof.Machine

/-- Whether the engine reads or writes a register (R36). -/
inductive Direction where
  | read
  | write
deriving DecidableEq, Repr

/-- One access to the register file on the SoC bus: a full 32-bit access to a 4-aligned address (D3, D29), carrying one raw
word, or for the control register the word or words of `P_CTRL_ENC` (D2). -/
structure BusAccess where
  reg : SpiReg
  address : Nat
  direction : Direction
  words : List Word
deriving DecidableEq, Repr

/-- The register an event accesses and the direction, if it accesses one (R7, R65). -/
def Event.register : Event → Option (SpiReg × Direction)
  | .get _ => none
  | .put _ => none
  | .wrCtrl _ _ _ => some (.ctrl, .write)
  | .wrCmdFifo _ => some (.cmdFifo, .write)
  | .wrDataFifo _ => some (.dataFifo, .write)
  | .rdStatus _ => some (.status, .read)
  | .rdDataFifo _ => some (.dataFifo, .read)

/-- The raw words an event carries (R64). D3 gives a command byte's place, bits 7:0, and no value for bits 31:8 of that
write: they are `upper`, any value (DESIGN CHOICE: an argument and not a number; log entry 23). -/
def Event.rawWords (upper : BitVec 24) : Event → List Word
  | .get _ => []
  | .put _ => []
  | .wrCtrl m bl cl => Config.ctrlEnc m bl cl
  | .wrCmdFifo b => [upper ++ b]
  | .wrDataFifo w => [w]
  | .rdStatus v => [v]
  | .rdDataFifo v => [v]

/-- The raw form of an event on the bus (R64: `P_CTRL_ENC(mode, burst_len, cmd_len)` at `P_REG_ADDR(CTRL)`), for each value
`upper` of the bits D3 leaves open (log entry 23). -/
def Event.busAccess (p : Params) (upper : BitVec 24) (e : Event) : Option BusAccess :=
  e.register.map fun rd => ⟨rd.1, p.regAddr rd.1, rd.2, e.rawWords upper⟩

/-- The four lanes of a word, lane 0 first (R67). -/
def lanes (w : Word) : List Byte := [lane w 0, lane w 1, lane w 2, lane w 3]

/-- R182: the bytes the SPI master is meant to send in one transaction: the command bytes, then, for a transmit, `len` bytes
of the pushed words, lane 0 first. It binds the SPI master and no rule of the engine. -/
def SpiMaster.intendedBytes (m : SpiMaster) : List Byte :=
  m.cmdFifo.take m.ctrl.cmdLen.toNat ++
    if m.ctrl.mode = Mode.tx.field then (m.txFifo.flatMap lanes).take m.ctrl.burstLen.toNat else []

end Sys2Proof.Machine
end

