-- ==== Sys2Proof/Safety.lean ====
section
/-! DEFINITION. The terms in which claims about the engine are made: which event and which successors each phase has (the
tables of spec/10_state.md R21, spec/20_memory.md R65, spec/40_dispatcher.md R132, spec/41_spi_transaction.md R179), the
invariant of its registers (R33, R175), replies and event sequences as the spec writes them out (spec/30_encoding.md R92,
spec/41_spi_transaction.md R160), and the named premises of spec/70_reset_and_hazards.md R272 and R284. -/

namespace Sys2Proof

open Machine

/-- R92: the reply of a command that runs no transaction, byte for byte as the opcode map writes it. Of `O_SPIOP` it is the
early acknowledgment alone (R162). -/
def Machine.replyBytes (p : Params) : Instr → List Byte
  | .nop => [0x06#8]
  | .qIface => [0x06#8, 0x01#8, 0x00#8]
  | .qCmdmap => [0x06#8, 0x3F#8, 0x00#8, 0x2D#8, 0x00#8] ++ List.replicate 28 0x00#8
  | .qPgmname => 0x06#8 :: p.pgmName
  | .qSerbuf => [0x06#8, 0xFF#8, 0xFF#8]
  | .qBustype => [0x06#8, 0x08#8]
  | .syncnop => [0x15#8, 0x06#8]
  | .sBustype a0 => if a0 = 0x08#8 then [0x06#8] else [0x15#8]
  | .oSpiop _ _ => [0x06#8]
  | .sPinState _ => [0x06#8]
  | .unknown06 _ => [0x15#8]
  | .unknown08 _ => [0x15#8]
  | .unknown11 => [0x15#8]
  | .unknown14 => [0x15#8]
  | .unknown16 _ => [0x15#8]
  | .unknown18 _ => [0x15#8]
  | .unknown20 _ => [0x15#8]
  | .unknown40 _ => [0x15#8]
  | .unknown80 _ => [0x15#8]

/-- R121: the reply an opcode without arguments queues, as the decode table writes it; one `NAK` for every other value. -/
def Machine.opcodeReply (p : Params) (op : Byte) : List Byte :=
  if op = 0x00#8 then [0x06#8]
  else if op = 0x01#8 then [0x06#8, 0x01#8, 0x00#8]
  else if op = 0x02#8 then [0x06#8, 0x3F#8, 0x00#8, 0x2D#8, 0x00#8] ++ List.replicate 28 0x00#8
  else if op = 0x03#8 then 0x06#8 :: p.pgmName
  else if op = 0x04#8 then [0x06#8, 0xFF#8, 0xFF#8]
  else if op = 0x05#8 then [0x06#8, 0x08#8]
  else if op = 0x10#8 then [0x15#8, 0x06#8]
  else [0x15#8]

/-- R241: the causes of a protocol error. -/
inductive ProtocolError where
  /-- `E_UNKNOWN_OPCODE` -/
  | unknownOpcode
  /-- `E_BUSTYPE_UNSUPPORTED` -/
  | bustypeUnsupported
deriving DecidableEq, Repr

/-- R241, R245: the protocol error a command raises, at most one, decided on its opcode and fixed arguments. -/
def Instr.protocolError : Instr → Option ProtocolError
  | .sBustype a0 => if a0 = 0x08#8 then none else some .bustypeUnsupported
  | .unknown06 _ | .unknown08 _ | .unknown11 | .unknown14 | .unknown16 _ | .unknown18 _ | .unknown20 _
  | .unknown40 _ | .unknown80 _ => some .unknownOpcode
  | .nop | .qIface | .qCmdmap | .qPgmname | .qSerbuf | .qBustype | .syncnop | .oSpiop _ _ | .sPinState _ => none

/-- R21: the kind of event a phase performs. -/
def Machine.Phase.performs : Phase → Event → Bool
  | .awaitOpcode, .get _ => true
  | .arg, .get _ => true
  | .reply, .put _ => true
  | .spiCtrl, .wrCtrl _ _ _ => true
  | .cmdGet, .get _ => true
  | .cmdPut, .wrCmdFifo _ => true
  | .txPoll, .rdStatus _ => true
  | .txFill, .get _ => true
  | .txPush, .wrDataFifo _ => true
  | .rxPoll, .rdStatus _ => true
  | .rxPop, .rdDataFifo _ => true
  | .rxEmit, .put _ => true
  | .busyPoll, .rdStatus _ => true
  | _, _ => false

/-- R132, R179: the phases a step that performs its event can lead to. -/
def Machine.Phase.successors : Phase → List Phase
  | .awaitOpcode => [.arg, .reply]
  | .arg => [.arg, .reply]
  | .reply => [.reply, .awaitOpcode, .spiCtrl]
  | .spiCtrl => [.cmdGet, .txPoll, .rxPoll, .busyPoll]
  | .cmdGet => [.cmdPut]
  | .cmdPut => [.cmdGet, .txPoll, .rxPoll, .busyPoll]
  | .txPoll => [.txFill, .txPoll]
  | .txFill => [.txFill, .txPush]
  | .txPush => [.txPoll, .busyPoll]
  | .rxPoll => [.rxPop, .rxPoll]
  | .rxPop => [.rxEmit]
  | .rxEmit => [.rxEmit, .rxPoll, .busyPoll]
  | .busyPoll => [.awaitOpcode, .busyPoll]
  | .faulted => []

/-- R65: the one access to the register file a phase makes, if it makes one. -/
def Machine.Phase.access : Phase → Option (SpiReg × Direction)
  | .spiCtrl => some (.ctrl, .write)
  | .cmdPut => some (.cmdFifo, .write)
  | .txPoll | .rxPoll | .busyPoll => some (.status, .read)
  | .txPush => some (.dataFifo, .write)
  | .rxPop => some (.dataFifo, .read)
  | .awaitOpcode | .arg | .reply | .cmdGet | .txFill | .rxEmit | .faulted => none

/-- R163: the burst length of lengths `cl` and `rl`. -/
def Machine.burstLength (cl rl : U24) : U24 := if rl = 0#24 then cl else rl

/-- R163: the direction of lengths `cl` and `rl`. -/
def Machine.burstMode (rl : U24) : Mode := if rl = 0#24 then .tx else .rx

/-- R161, R163: the registers of an operation with lengths `cl` and `rl` are written. -/
def Machine.State.operation (s : State) (cl rl : U24) : Prop :=
  s.regs.cl = some cl ∧ s.regs.rl = some rl ∧ s.regs.mode = some (burstMode rl) ∧ s.regs.len = some (burstLength cl rl)

/-- R29, R175: the registers of a burst with `rem` bytes left, all its command bytes streamed. -/
def Machine.State.burst (s : State) (cl rl rem : U24) : Prop :=
  s.operation cl rl ∧ s.regs.cmdRem = some 0#24 ∧ s.regs.rem = some rem ∧ 0#24 < rem ∧ rem ≤ burstLength cl rl

/-- What the registers hold in each phase: everything the phase's rule reads has been written by the current command (R33),
counters are in range (R23, R27 to R29, R175), and a fault name is recorded exactly in `FAULTED` (R243). -/
def Machine.State.coherent (s : State) : Prop :=
  (s.fault = none ↔ s.phase ≠ .faulted) ∧
  match s.phase with
  | .awaitOpcode => True
  | .arg => ∃ op args m, s.regs.op = some op ∧ s.regs.args = some args ∧ s.regs.argc = some m ∧
      0 < m ∧ args.length + m = fixedArgs op
  | .reply => (∃ r, s.regs.reply = some r ∧ 0 < r.length ∧ r.length ≤ 33) ∧
      (s.regs.after = some .awaitOpcode ∨ s.regs.after = some .spiCtrl ∧ ∃ cl rl, s.operation cl rl)
  | .spiCtrl => ∃ cl rl, s.operation cl rl
  | .cmdGet => ∃ cl rl c, s.operation cl rl ∧ s.regs.cmdRem = some c ∧ 0#24 < c ∧ c ≤ cl ∧
      s.regs.rem = some (burstLength cl rl)
  | .cmdPut => ∃ cl rl c b, s.operation cl rl ∧ s.regs.cmdRem = some c ∧ 0#24 < c ∧ c ≤ cl ∧
      s.regs.rem = some (burstLength cl rl) ∧ s.regs.cbyte = some b
  | .txPoll => ∃ cl rem, s.burst cl 0#24 rem
  | .txFill => ∃ cl rem w j, s.burst cl 0#24 rem ∧ s.regs.n = some (chunk rem) ∧ s.regs.j = some j ∧ j < chunk rem ∧
      s.regs.word = some w
  | .txPush => ∃ cl rem w, s.burst cl 0#24 rem ∧ s.regs.n = some (chunk rem) ∧ s.regs.word = some w
  | .rxPoll => ∃ cl rl rem, rl ≠ 0#24 ∧ s.burst cl rl rem
  | .rxPop => ∃ cl rl rem, rl ≠ 0#24 ∧ s.burst cl rl rem
  | .rxEmit => ∃ cl rl rem w j, rl ≠ 0#24 ∧ s.burst cl rl rem ∧ s.regs.n = some (chunk rem) ∧ s.regs.j = some j ∧
      j < chunk rem ∧ s.regs.word = some w
  | .busyPoll => ∃ cl rl, s.operation cl rl ∧ s.regs.cmdRem = some 0#24 ∧ s.regs.rem = some 0#24
  | .faulted => True

/-- The register-file events of a trace, in order (R278). -/
def Machine.registerEvents (tr : List Event) : List Event := tr.filter fun e => e.register.isSome

/-- R278: the register file has been left idle: no register-file event yet, or the last one is a status read that showed
`busy = false`. -/
def Machine.leftIdle (p : Params) (tr : List Event) : Prop :=
  match (registerEvents tr).getLast? with
  | none => True
  | some (.rdStatus v) => p.isBusy v = false
  | some _ => False

/-- R278: between operations, and until an operation's control write, the register file has been left idle. -/
def Machine.State.serialised (s : State) : Prop :=
  match s.phase with
  | .awaitOpcode | .arg | .reply | .spiCtrl => leftIdle s.params s.trace
  | .cmdGet | .cmdPut | .txPoll | .txFill | .txPush | .rxPoll | .rxPop | .rxEmit | .busyPoll | .faulted => True

/-- R41, R282: the last register-file event is a status read that showed what the test asks for. -/
def Machine.lastPoll (q : Word → Bool) (tr : List Event) : Prop :=
  match (registerEvents tr).getLast? with
  | some (.rdStatus v) => q v = true
  | _ => False

/-- R41, R282: a data word is pushed, or popped, only after a status read that showed capacity, or data, with no other
register-file event since. -/
def Machine.State.polled (s : State) : Prop :=
  match s.phase with
  | .txFill | .txPush => lastPoll s.params.hasCapacity s.trace
  | .rxPop => lastPoll s.params.hasData s.trace
  | .awaitOpcode | .arg | .reply | .spiCtrl | .cmdGet | .cmdPut | .txPoll | .rxPoll | .rxEmit | .busyPoll
  | .faulted => True

/-- The raw value of the `k`-th status read from now on, if no other register is read before it (R43). -/
def Machine.State.statusAhead (s : State) (k : Nat) : Word :=
  s.spi.statusNext.getD k (Config.freeStatus (s.spi.drawn + (k - s.spi.statusNext.length)))

/-- `BOOT_READY` (R272), of the state in which the engine takes its first step: the SPI master is idle (`busy = false`, FIFOs
empty) and the engine is entered in `AWAIT_OPCODE`. The other things the rule asks of the platform hold of every state: the
transport works as R61 and R62 say (it need not accept a byte yet), and the constants are in place (R35). What the master will
show at later reads is no part of the premise (log entries 21, 24). -/
def Machine.State.bootReady (s : State) : Prop :=
  s.phase = .awaitOpcode ∧ s.spi.status = ⟨false, 0, 0⟩ ∧ s.spi.cmdFifo = [] ∧ s.spi.txFifo = []

/-- The run from `s` among the actions of `e` is at `t` when the engine takes step `k`. -/
def Machine.Schedule.reaches (e : Schedule) (s : State) (k : Nat) (t : State) : Prop := runTurns (e.turns k) s = .next t

/-- In the run from `s` among the actions of `e`: whenever the engine takes a step at a state with `p`, it then or later takes
one at a state with `q`. -/
def Machine.Schedule.leadsTo (e : Schedule) (s : State) (p q : State → Prop) : Prop :=
  ∀ k t, e.reaches s k t → p t → ∃ j u, k ≤ j ∧ e.reaches s j u ∧ q u

/-- `LIVE_HOST_IN` (R284), of frames begun at the head of `tin`: every byte of them is eventually in `tin`. -/
def Machine.Schedule.liveHostIn (e : Schedule) (s : State) (frames : List Frame) : Prop :=
  ∃ k, frames.flatMap Frame.bytes <+: s.tin ++ e.sent k

/-- `LIVE_HOST_OUT` (R284): the transport eventually accepts every byte the engine puts. -/
def Machine.Schedule.liveHostOut (e : Schedule) (s : State) : Prop :=
  e.leadsTo s (fun t => t.phase = .reply ∨ t.phase = .rxEmit) (fun t => t.ready = true)

/-- `LIVE_TX` (R284): in `TX_POLL`, some status read eventually shows `tx_level < P_TX_HWM`. -/
def Machine.Schedule.liveTx (e : Schedule) (s : State) : Prop :=
  e.leadsTo s (fun t => t.phase = .txPoll) (fun t => t.phase = .txPoll ∧ t.params.hasCapacity t.nextStatus = true)

/-- `LIVE_RX` (R284): in `RX_POLL`, some status read eventually shows `rx_level != 0`. -/
def Machine.Schedule.liveRx (e : Schedule) (s : State) : Prop :=
  e.leadsTo s (fun t => t.phase = .rxPoll) (fun t => t.phase = .rxPoll ∧ t.params.hasData t.nextStatus = true)

/-- `LIVE_BUSY` (R284): in `BUSY_POLL`, some status read eventually shows `busy = false`. -/
def Machine.Schedule.liveBusy (e : Schedule) (s : State) : Prop :=
  e.leadsTo s (fun t => t.phase = .busyPoll) (fun t => t.phase = .busyPoll ∧ t.params.isBusy t.nextStatus = false)

/-- The lengths of a command that the open parameters have room for: it raises neither of the faults of undefined cases
(R180, R181). -/
def Instr.fits (p : Params) (i : Instr) : Prop :=
  (∀ k cl rl, i = .oSpiop cl rl → p.ctrlLenBits = some k → rl.toNat < 2 ^ k ∧ cl.toNat < 2 ^ k) ∧
  ∀ d, p.cmdFifoDepth = some d → i.cmdLength ≤ d

/-- R67: a chunk of at most four bytes as a word, `b0 | b1 << 8 | b2 << 16 | b3 << 24`; lanes without a byte are 0 (R168). -/
def Machine.packWord : List Byte → Word
  | [] => 0#32
  | b :: rest => b.setWidth 32 ||| packWord rest <<< 8

/-- The bytes of a burst in chunks of four, the last one of what is left (R175, R178 (e)). -/
def Machine.chunks : List Byte → List (List Byte)
  | [] => []
  | [a] => [[a]]
  | [a, b] => [[a, b]]
  | [a, b, c] => [[a, b, c]]
  | a :: b :: c :: d :: rest => [a, b, c, d] :: chunks rest

/-- R166: the events that stream command bytes into the command FIFO. -/
def Machine.commandEvents (cmd : List Byte) : List Event := cmd.flatMap fun b => [.get b, .wrCmdFifo b]

/-- R167 to R169: the events of a transmit burst in which every poll reads `v`. -/
def Machine.transmitEvents (v : Word) (data : List Byte) : List Event :=
  (chunks data).flatMap fun c => .rdStatus v :: c.map .get ++ [.wrDataFifo (packWord c)]

/-- R170 to R172: the events of a receive burst of `k` bytes that pops `ws`, in which every poll reads `v`. -/
def Machine.receiveEvents (v : Word) : Nat → List Word → List Event
  | _, [] => []
  | k, w :: ws => .rdStatus v :: .rdDataFifo w :: ((lanes w).take k).map .put ++ receiveEvents v (k - 4) ws

/-- The number of data words of a burst of `k` bytes, `ceil(k / 4)` (R175). -/
def Machine.wordCount (k : Nat) : Nat := (k + 3) / 4

/-- The bytes the engine has taken from the host in a trace, in order (R44). -/
def Machine.takenBytes (tr : List Event) : List Byte :=
  tr.filterMap fun e => match e with
    | .get b => some b
    | .put _ | .wrCtrl _ _ _ | .wrCmdFifo _ | .wrDataFifo _ | .rdStatus _ | .rdDataFifo _ => none

/-- The bytes the engine has given to the host in a trace, in order (R44). -/
def Machine.givenBytes (tr : List Event) : List Byte :=
  tr.filterMap fun e => match e with
    | .put b => some b
    | .get _ | .wrCtrl _ _ _ | .wrCmdFifo _ | .wrDataFifo _ | .rdStatus _ | .rdDataFifo _ => none

/-- The command bytes pushed in a trace, in order (R40). -/
def Machine.pushedBytes (tr : List Event) : List Byte :=
  tr.filterMap fun e => match e with
    | .wrCmdFifo b => some b
    | .get _ | .put _ | .wrCtrl _ _ _ | .wrDataFifo _ | .rdStatus _ | .rdDataFifo _ => none

/-- The data words pushed in a trace, in order (R70). -/
def Machine.pushedWords (tr : List Event) : List Word :=
  tr.filterMap fun e => match e with
    | .wrDataFifo w => some w
    | .get _ | .put _ | .wrCtrl _ _ _ | .wrCmdFifo _ | .rdStatus _ | .rdDataFifo _ => none

/-- A run of `n` steps of the engine alone, stopping at the first stop: the host's `Host.Core.run` of this machine
(`runFor_eq_host_run`), written over its own types. -/
def Machine.runFor : Nat → State → Host.Outcome State Fault Refusal
  | 0, s => .next s
  | n + 1, s =>
    match step s with
    | .next t => runFor n t
    | .fault f => .fault f
    | .refused r => .refused r

end Sys2Proof
end

