-- ==== Sys2Proof/Certificates/Slice0/Obligations.lean ====
section
/-! DEFINITION. The statements for the provers. Each formalises rules of spec/ about the whole model: every state, every
operand and every choice of the open parameters, unless its hypotheses say less. A state's parameters are any parameters
(log entry 7), and what the environment answers is any answer (log entry 9). -/

open Sys2Proof Sys2Proof.Machine

/-! ### Encoding -/

/-- R92, R95, R96: the bytes of a well-formed command decode to that command, with every operand at every value, and leave
exactly the bytes that follow it. -/
def Obligations.EncodedCommandDecodesBack : Prop :=
  ∀ (i : Instr) (rest : List Byte), i.wf = true → decode (encode i ++ rest) = .ok (i, rest)

/-- R95, R99, R101: the same of whole frames, payload included; and a frame has the length R99 gives it, which for
`O_SPIOP` is `7 + cl + (rl = 0 ? cl : 0)`. -/
def Obligations.EncodedFrameDecodesBack : Prop :=
  ∀ (f : Frame) (rest : List Byte), f.wf = true →
    decodeFrame (f.bytes ++ rest) = .ok (f, rest) ∧ f.bytes.length = f.instr.frameLength ∧
    (∀ cl rl, f.instr = .oSpiop cl rl → f.bytes.length = 7 + cl.toNat + (if rl = 0#24 then cl.toNat else 0))

/-- The other direction: what is decoded is well-formed and encodes back to the very bytes it was read from. -/
def Obligations.DecodedCommandEncodesBack : Prop :=
  ∀ (bs : List Byte) (i : Instr) (rest : List Byte), decode bs = .ok (i, rest) →
    i.wf = true ∧ encode i ++ rest = bs

/-- R94, R95, R124: no opcode is illegal. A byte sequence with an opcode either lacks fixed arguments of it, or decodes to
a command that takes exactly them. -/
def Obligations.DecoderWaitsOnlyForArguments : Prop :=
  ∀ (op : Byte) (rest : List Byte),
    (rest.length < fixedArgs op → decode (op :: rest) = .error .missingArguments) ∧
    (fixedArgs op ≤ rest.length → ∃ i, decode (op :: rest) = .ok (i, rest.drop (fixedArgs op)) ∧ i.opcode = op)

/-- R94: every value not listed in R92 decodes to `UNKNOWN`, which takes no further byte and whose action is exactly one
`NAK`; and the decoder is total on the 256 byte values. -/
def Obligations.UnlistedOpcodeIsUnknown : Prop :=
  (∀ (op : Byte) (rest : List Byte),
    op ∉ [0x00#8, 0x01#8, 0x02#8, 0x03#8, 0x04#8, 0x05#8, 0x10#8, 0x12#8, 0x13#8, 0x15#8] →
    ∃ i, decode (op :: rest) = .ok (i, rest) ∧ i.mnemonic = "UNKNOWN" ∧
      ∀ s : State, exec i s =
        .next { s with phase := .reply, regs := { s.regs with reply := some [0x15#8], after := some .awaitOpcode } }) ∧
  ∀ op : Byte, ∃ i rest, decode (op :: List.replicate 6 0x00#8) = .ok (i, rest)

/-- R96: a length field is assembled little-endian from three wire bytes, unsigned and unscaled; `cl` comes from the first
three arguments and `rl` from the last three; `0x01, 0x02, 0x03` give `0x030201`. -/
def Obligations.LengthFieldAssembly : Prop :=
  (∀ a b c : Byte,
    u24OfBytes a b c = a.setWidth 24 ||| b.setWidth 24 <<< 8 ||| c.setWidth 24 <<< 16 ∧
    (u24OfBytes a b c).toNat = a.toNat + 2 ^ 8 * b.toNat + 2 ^ 16 * c.toNat) ∧
  (∀ (v : U24), ∃ a b c, u24OfBytes a b c = v) ∧
  (∀ (a0 a1 a2 a3 a4 a5 : Byte),
    decode [0x13#8, a0, a1, a2, a3, a4, a5] = .ok (.oSpiop (u24OfBytes a0 a1 a2) (u24OfBytes a3 a4 a5), [])) ∧
  u24OfBytes 0x01#8 0x02#8 0x03#8 = 0x030201#24

/-- R92, R95: a few words written out from the opcode map decode to the commands they stand for. -/
def Obligations.SampleFramesDecode : Prop :=
  decode [0x00#8] = .ok (.nop, []) ∧
  decode [0x02#8, 0xAA#8] = .ok (.qCmdmap, [0xAA#8]) ∧
  decode [0x10#8] = .ok (.syncnop, []) ∧
  decode [0x12#8, 0x09#8] = .ok (.sBustype 0x09#8, []) ∧
  decode [0x15#8, 0x15#8] = .ok (.sPinState 0x15#8, []) ∧
  decode [0x13#8, 0x04#8, 0x00#8, 0x00#8, 0x10#8, 0x00#8, 0x01#8, 0x03#8] = .ok (.oSpiop 0x000004#24 0x010010#24, [0x03#8]) ∧
  decode [0x09#8] = .ok (.unknown08 0x09#8, []) ∧
  decode [0xFF#8] = .ok (.unknown80 0xFF#8, [])

/-! ### The commands' actions -/

/-- R126, R127: `NOP` queues `[ACK]`, `SYNCNOP` queues `[NAK, ACK]`, in every state; nothing else changes. -/
def Obligations.NopAndSyncnopActions : Prop :=
  ∀ s : State,
    exec .nop s =
      .next { s with phase := .reply, regs := { s.regs with reply := some [0x06#8], after := some .awaitOpcode } } ∧
    exec .syncnop s =
      .next { s with phase := .reply, regs := { s.regs with reply := some [0x15#8, 0x06#8], after := some .awaitOpcode } }

/-- R128: the reply of `S_BUSTYPE` is `ACK` exactly for `a0 = 0x08` (equality, not a bit test), else `NAK`; nothing is
stored. -/
def Obligations.SetBustypeAction : Prop :=
  ∀ (s : State) (a0 : Byte), exec (.sBustype a0) s =
    .next { s with
      phase := .reply
      regs := { s.regs with
        reply := some (if a0 = 0x08#8 then [0x06#8] else [0x15#8])
        after := some .awaitOpcode } }

/-- R129: `S_PIN_STATE` acknowledges every value; nothing is stored. -/
def Obligations.SetPinStateAction : Prop :=
  ∀ (s : State) (a0 : Byte), exec (.sPinState a0) s =
    .next { s with phase := .reply, regs := { s.regs with reply := some [0x06#8], after := some .awaitOpcode } }

/-- R210, R211, R214, R215: the constant replies of four queries, byte for byte; nothing else changes. -/
def Obligations.ConstantQueryActions : Prop :=
  ∀ s : State,
    (∀ i r, (i, r) ∈ [
        (Instr.qIface, [0x06#8, 0x01#8, 0x00#8]),
        (Instr.qCmdmap, [0x06#8, 0x3F#8, 0x00#8, 0x2D#8, 0x00#8] ++ List.replicate 28 0x00#8),
        (Instr.qSerbuf, [0x06#8, 0xFF#8, 0xFF#8]),
        (Instr.qBustype, [0x06#8, 0x08#8])] →
      exec i s =
        .next { s with phase := .reply, regs := { s.regs with reply := some r, after := some .awaitOpcode } })

/-- R213: `Q_PGMNAME` queues `ACK` and the 16 bytes of the name, which are `L` ASCII characters in `0x01` to `0x7F` and then
NULs, whatever the open parameter is. -/
def Obligations.ProgrammerNameAction : Prop :=
  ∀ s : State, ∃ name : List Byte,
    exec .qPgmname s = .next { s with
      phase := .reply
      regs := { s.regs with reply := some (0x06#8 :: name), after := some .awaitOpcode } } ∧
    name = s.params.pgmName ∧ name.length = 16 ∧
    ∃ chars : List Byte, name = chars ++ List.replicate (16 - chars.length) 0x00#8 ∧
      ∀ c ∈ chars, 1 ≤ c.toNat ∧ c.toNat ≤ 0x7F

/-- R130, R241, R246: every `UNKNOWN` command queues one `NAK`, saves nothing and changes nothing else. -/
def Obligations.UnknownActions : Prop :=
  ∀ (s : State) (op : Byte), ∀ i ∈ [Instr.unknown06 op, .unknown08 op, .unknown11, .unknown14, .unknown16 op,
      .unknown18 op, .unknown20 op, .unknown40 op, .unknown80 op],
    exec i s =
      .next { s with phase := .reply, regs := { s.regs with reply := some [0x15#8], after := some .awaitOpcode } }

/-- R161, R162, R163: `O_SPIOP` writes its lengths, its direction and its burst length (`rl` alone decides), and queues the
early acknowledgment with `SPI_CTRL` to follow; nothing else changes. -/
def Obligations.SpiopAction : Prop :=
  ∀ (s : State) (cl rl : U24), exec (.oSpiop cl rl) s =
    .next { s with
      phase := .reply
      regs := { s.regs with
        cl := some cl
        rl := some rl
        mode := some (if rl ≠ 0#24 then .rx else .tx)
        len := some (if rl ≠ 0#24 then rl else cl)
        reply := some [0x06#8]
        after := some .spiCtrl } }

/-- R212: bit `n` of the capability bitmap is set exactly when opcode `n` is one of the supported commands. -/
def Obligations.CapabilityBitmapIsTheOpcodeMap : Prop :=
  cmdmap.length = 32 ∧
  ∀ n : Fin 256, (cmdmap.getD (n.val / 8) 0x00#8).getLsbD (n.val % 8) = true ↔
    ∃ i rest, decode (BitVec.ofNat 8 n.val :: List.replicate 6 0x00#8) = .ok (i, rest) ∧ i.isUnknown = false

/-! ### Fetching -/

/-- R120, R121: the step that takes an opcode sets the registers of the decode table: the reply and `after`, or `args <- []`
and `argc` for the three opcodes with arguments. The environment sees the one `Get`. -/
def Obligations.OpcodeStepFollowsTable : Prop :=
  ∀ (s : State), s.phase = .awaitOpcode →
    (s.tin = [] → step s = .next s) ∧
    ∀ (op : Byte) (rest : List Byte), s.tin = op :: rest →
      ∃ t, step s = .next t ∧ t.tin = rest ∧ t.trace = s.trace ++ [.get op] ∧ t.regs.op = some op ∧
        t.tout = s.tout ∧ t.spi = s.spi ∧ t.ready = s.ready ∧ t.params = s.params ∧ t.fault = s.fault ∧
        (op = 0x12#8 ∨ op = 0x15#8 → t.phase = .arg ∧ t.regs.args = some [] ∧ t.regs.argc = some 1) ∧
        (op = 0x13#8 → t.phase = .arg ∧ t.regs.args = some [] ∧ t.regs.argc = some 6) ∧
        (op ≠ 0x12#8 → op ≠ 0x13#8 → op ≠ 0x15#8 →
          t.phase = .reply ∧ t.regs.reply = some (opcodeReply s.params op) ∧ t.regs.after = some .awaitOpcode)

/-- R122: the argument parser. It holds while `tin` is empty, collects the bytes in order, and in the step that takes the
last one the command acts. -/
def Obligations.ArgumentStep : Prop :=
  ∀ (s : State) (op : Byte) (args : List Byte) (m : Nat), s.phase = .arg → s.regs.op = some op →
    s.regs.args = some args → s.regs.argc = some (m + 1) →
    (s.tin = [] → step s = .next s) ∧
    ∀ (a : Byte) (rest : List Byte), s.tin = a :: rest →
      (0 < m → step s = .next { s with
        tin := rest
        trace := s.trace ++ [.get a]
        regs := { s.regs with args := some (args ++ [a]), argc := some m } }) ∧
      (∀ i, m = 0 → decode (op :: (args ++ [a])) = .ok (i, []) → step s = exec i { s with
        tin := rest
        trace := s.trace ++ [.get a]
        regs := { s.regs with args := some (args ++ [a]), argc := some 0 } })

/-- A step runs the decoded command: when the byte at the head of `tin`, or the argument bytes taken and the byte at the head
of `tin`, complete a command, the step is `exec` of it at the state after that `Get`. That a new command starts with every
other register unwritten is the model's reading of R33 and R34 (log entry 5). -/
def Obligations.StepRunsDecodedCommand : Prop :=
  (∀ (s : State) (op : Byte) (rest : List Byte) (i : Instr), s.phase = .awaitOpcode → s.tin = op :: rest →
    decode [op] = .ok (i, []) → step s = exec i { s with
      tin := rest
      trace := s.trace ++ [.get op]
      regs := { Regs.unwritten with op := some op } }) ∧
  (∀ (s : State) (op a : Byte) (args rest : List Byte) (i : Instr), s.phase = .arg → s.regs.op = some op →
    s.regs.args = some args → s.regs.argc = some 1 → s.tin = a :: rest →
    decode (op :: (args ++ [a])) = .ok (i, []) → step s = exec i { s with
      tin := rest
      trace := s.trace ++ [.get a]
      regs := { s.regs with args := some (args ++ [a]), argc := some 0 } })

/-- R34: no internal register carries a value into the next command: the step that takes an opcode gives the same state
whatever the registers held. Stronger than the rule, which asks this of registers that are read: it rests on the model's choice
to unwrite every register at a new command (log entry 5). -/
def Obligations.RegistersDoNotCarryOver : Prop :=
  ∀ (s : State) (r : Regs), s.phase = .awaitOpcode → s.tin ≠ [] → step { s with regs := r } = step s

/-! ### The reply serializer -/

/-- R123: one step of the reply serializer, with its hold. -/
def Obligations.ReplyStep : Prop :=
  ∀ (s : State) (b : Byte) (rest : List Byte) (a : After), s.phase = .reply → s.regs.reply = some (b :: rest) →
    s.regs.after = some a →
    (s.ready = false → step s = .next s) ∧
    (s.ready = true → step s = .next { s with
      tout := s.tout ++ [b]
      trace := s.trace ++ [.put b]
      regs := { s.regs with reply := some rest }
      phase := if rest ≠ [] then .reply else match a with
        | .awaitOpcode => .awaitOpcode
        | .spiCtrl => .spiCtrl })

/-- Every command without a transaction, sent whole to an accepting transport, is answered with exactly its reply of the
opcode map and nothing else, and the engine is back in `AWAIT_OPCODE` with the bytes that follow untouched. -/
def Obligations.ShortCommandIsServed : Prop :=
  ∀ (s : State) (i : Instr) (rest : List Byte), i.wf = true → (∀ cl rl, i ≠ .oSpiop cl rl) →
    s.phase = .awaitOpcode → s.ready = true → s.tin = encode i ++ rest →
    ∃ t, runFor ((encode i).length + i.replyLength) s = .next t ∧
      t.phase = .awaitOpcode ∧ t.tin = rest ∧ t.tout = s.tout ++ replyBytes s.params i ∧
      t.trace = s.trace ++ (encode i).map .get ++ (replyBytes s.params i).map .put ∧
      t.spi = s.spi ∧ t.fault = s.fault ∧ t.ready = true ∧ t.params = s.params

/-- R128: the whole of `S_BUSTYPE`, as its pseudocode writes it: two `Get`s, then one `Put` that is `ACK` for `0x08` and
`NAK` for every other value. Nothing is remembered: what the registers hold makes no difference to the next command. The last
clause is stronger than the rule: it rests on the model's choice to unwrite every register at a new command (log entry 5). -/
def Obligations.SetBustypeIsServed : Prop :=
  ∀ (s : State) (a0 : Byte) (rest : List Byte), s.phase = .awaitOpcode → s.ready = true →
    s.tin = 0x12#8 :: a0 :: rest →
    ∃ t, runFor 3 s = .next t ∧ t.phase = .awaitOpcode ∧ t.tin = rest ∧
      t.trace = s.trace ++ [.get 0x12#8, .get a0, .put (if a0 = 0x08#8 then 0x06#8 else 0x15#8)] ∧
      t.tout = s.tout ++ [if a0 = 0x08#8 then 0x06#8 else 0x15#8] ∧
      t.spi = s.spi ∧ t.fault = s.fault ∧ t.ready = true ∧ t.params = s.params ∧
      (rest ≠ [] → ∀ r : Regs, step { t with regs := r } = step t)

/-! ### The transaction engine -/

/-- R161, R162, R163: the step that takes the sixth length byte sets the lengths, the direction and the burst length and
queues the acknowledgment; and the `Put(ACK)` is the very next event, before the control write, before any command byte is
taken, and before any access to the register file. -/
def Obligations.EarlyAcknowledgment : Prop :=
  ∀ (s : State) (c0 c1 c2 r0 r1 r2 : Byte) (rest : List Byte) (cl rl : U24), s.phase = .arg → s.regs.op = some 0x13#8 →
    s.regs.args = some [c0, c1, c2, r0, r1] → s.regs.argc = some 1 → s.tin = r2 :: rest → s.ready = true →
    cl = c0.setWidth 24 ||| c1.setWidth 24 <<< 8 ||| c2.setWidth 24 <<< 16 →
    rl = r0.setWidth 24 ||| r1.setWidth 24 <<< 8 ||| r2.setWidth 24 <<< 16 →
    ∃ u t, step s = .next u ∧ u.phase = .reply ∧ u.trace = s.trace ++ [.get r2] ∧
      u.regs.reply = some [0x06#8] ∧ u.regs.after = some .spiCtrl ∧
      u.regs.cl = some cl ∧ u.regs.rl = some rl ∧
      (rl ≠ 0#24 → u.regs.mode = some .rx ∧ u.regs.len = some rl) ∧
      (rl = 0#24 → u.regs.mode = some .tx ∧ u.regs.len = some cl) ∧
      step u = .next t ∧ t.phase = .spiCtrl ∧ t.tin = rest ∧ t.trace = s.trace ++ [.get r2, .put 0x06#8] ∧
      t.tout = s.tout ++ [0x06#8] ∧ t.spi = s.spi ∧ t.operation cl rl

/-- R165, R181: control programming, its fault, and the phase it leads to. In mode `RX` with a length of 0, which no run
reaches, the rule's words give two phases, and `RX_POLL` is the model's reading (log entry 20). -/
def Obligations.ControlStep : Prop :=
  ∀ (s : State) (mode : Mode) (len cl : U24), s.phase = .spiCtrl → s.regs.mode = some mode →
    s.regs.len = some len → s.regs.cl = some cl →
    ((∃ k, s.params.ctrlLenBits = some k ∧ (2 ^ k ≤ len.toNat ∨ 2 ^ k ≤ cl.toNat)) →
      step s = .next { s with phase := .faulted, fault := some .ctrlFieldOverflow }) ∧
    ((∀ k, s.params.ctrlLenBits = some k → len.toNat < 2 ^ k ∧ cl.toNat < 2 ^ k) →
      step s = .next { s with
        spi := { s.spi with ctrl := ⟨if mode = .tx then 3#3 else 5#3, len, cl⟩ }
        trace := s.trace ++ [.wrCtrl (if mode = .tx then 3#3 else 5#3) len cl]
        regs := { s.regs with cmdRem := some cl, rem := some len }
        phase :=
          if 0#24 < cl then .cmdGet
          else if mode = .tx ∧ 0#24 < len then .txPoll
          else if mode = .rx then .rxPoll
          else .busyPoll })

/-- R166, R180: command streaming. `CMD_GET` holds or takes a byte; `CMD_PUT` pushes it, unless the command FIFO's given
capacity has been written in this operation. In mode `RX` with nothing left to move, which no run reaches, the rule's words give
two phases, and `RX_POLL` is the model's reading (log entry 20). -/
def Obligations.CommandStreaming : Prop :=
  (∀ (s : State), s.phase = .cmdGet → (s.tin = [] → step s = .next s) ∧
    ∀ (b : Byte) (rest : List Byte), s.tin = b :: rest → step s = .next { s with
      tin := rest
      trace := s.trace ++ [.get b]
      regs := { s.regs with cbyte := some b }
      phase := .cmdPut }) ∧
  (∀ (s : State) (b : Byte) (c cl rem : U24) (mode : Mode), s.phase = .cmdPut → s.regs.cbyte = some b →
    s.regs.cmdRem = some c → 0#24 < c → c ≤ cl → s.regs.cl = some cl → s.regs.mode = some mode → s.regs.rem = some rem →
    (s.params.cmdFifoDepth = some (cl.toNat - c.toNat) →
      step s = .next { s with phase := .faulted, fault := some .cmdFifoOverrun }) ∧
    (s.params.cmdFifoDepth ≠ some (cl.toNat - c.toNat) →
      step s = .next { s with
        spi := { s.spi with cmdFifo := s.spi.cmdFifo ++ [b] }
        trace := s.trace ++ [.wrCmdFifo b]
        regs := { s.regs with cmdRem := some (c - 1#24) }
        phase :=
          if c ≠ 1#24 then .cmdGet
          else if mode = .tx ∧ 0#24 < rem then .txPoll
          else if mode = .rx then .rxPoll
          else .busyPoll }))

/-- R167: the transmit capacity poll, for every status the SPI master shows; capacity is strictly below the high-water
mark (R39). -/
def Obligations.TransmitPoll : Prop :=
  ∀ (s : State) (rem : U24) (v : Word) (vs : List Word), s.phase = .txPoll → s.regs.rem = some rem →
    s.spi.statusNext = v :: vs →
    step s = .next { s with
      spi := { s.spi with statusNext := vs }
      trace := s.trace ++ [.rdStatus v]
      regs :=
        if (s.params.decodeStatus v).txLevel < s.params.txHwm then
          { s.regs with n := some (min 4 rem.toNat), j := some 0, word := some 0#32 }
        else s.regs
      phase := if (s.params.decodeStatus v).txLevel < s.params.txHwm then .txFill else .txPoll }

/-- R168: word packing. The step holds while `tin` is empty; a byte goes to lane `j`, and the word is complete at `n`. -/
def Obligations.TransmitFill : Prop :=
  ∀ (s : State) (w : Word) (j n : Nat), s.phase = .txFill → s.regs.word = some w → s.regs.j = some j →
    s.regs.n = some n →
    (s.tin = [] → step s = .next s) ∧
    ∀ (b : Byte) (rest : List Byte), s.tin = b :: rest → step s = .next { s with
      tin := rest
      trace := s.trace ++ [.get b]
      regs := { s.regs with word := some (w ||| (b.setWidth 32 <<< (8 * j))), j := some (j + 1) }
      phase := if j + 1 = n then .txPush else .txFill }

/-- R169: the data-FIFO write and the count that follows it. -/
def Obligations.TransmitPush : Prop :=
  ∀ (s : State) (w : Word) (rem : U24) (n : Nat), s.phase = .txPush → s.regs.word = some w →
    s.regs.rem = some rem → s.regs.n = some n → n ≤ rem.toNat →
    ∃ rem', rem'.toNat = rem.toNat - n ∧ step s = .next { s with
      spi := { s.spi with txFifo := s.spi.txFifo ++ [w] }
      trace := s.trace ++ [.wrDataFifo w]
      regs := { s.regs with rem := some rem' }
      phase := if 0 < rem.toNat - n then .txPoll else .busyPoll }

/-- R170: the receive data poll, for every status the SPI master shows. -/
def Obligations.ReceivePoll : Prop :=
  ∀ (s : State) (v : Word) (vs : List Word), s.phase = .rxPoll → s.spi.statusNext = v :: vs →
    step s = .next { s with
      spi := { s.spi with statusNext := vs }
      trace := s.trace ++ [.rdStatus v]
      phase := if (s.params.decodeStatus v).rxLevel ≠ 0 then .rxPop else .rxPoll }

/-- R171: the data-FIFO read pops exactly one word. -/
def Obligations.ReceivePop : Prop :=
  ∀ (s : State) (rem : U24) (w : Word) (ws : List Word), s.phase = .rxPop → s.regs.rem = some rem →
    s.spi.rxWords = w :: ws →
    step s = .next { s with
      spi := { s.spi with rxWords := ws }
      trace := s.trace ++ [.rdDataFifo w]
      regs := { s.regs with word := some w, n := some (min 4 rem.toNat), j := some 0 }
      phase := .rxEmit }

/-- R172: word unpacking. The step holds while the transport does not accept; it puts lane `j`, and the last significant lane
counts the word off. -/
def Obligations.ReceiveEmit : Prop :=
  ∀ (s : State) (w : Word) (rem : U24) (j n : Nat), s.phase = .rxEmit → s.regs.word = some w →
    s.regs.rem = some rem → s.regs.j = some j → s.regs.n = some n → n ≤ rem.toNat →
    (s.ready = false → step s = .next s) ∧
    (s.ready = true → ∃ rem', rem'.toNat = (if j + 1 = n then rem.toNat - n else rem.toNat) ∧
      step s = .next { s with
        tout := s.tout ++ [w.extractLsb' (8 * j) 8]
        trace := s.trace ++ [.put (w.extractLsb' (8 * j) 8)]
        regs := { s.regs with j := some (j + 1), rem := some rem' }
        phase := if j + 1 = n then (if 0 < rem.toNat - n then .rxPoll else .busyPoll) else .rxEmit })

/-- R173: the completion poll, for every status the SPI master shows. -/
def Obligations.BusyPoll : Prop :=
  ∀ (s : State) (v : Word) (vs : List Word), s.phase = .busyPoll → s.spi.statusNext = v :: vs →
    step s = .next { s with
      spi := { s.spi with statusNext := vs }
      trace := s.trace ++ [.rdStatus v]
      phase := if (s.params.decodeStatus v).busy = false then .awaitOpcode else .busyPoll }

/-- R43, R63, R178 (h): a register read never holds. Where the state scripts no answer the value is free, and the step of each
of the four phases that read a register is the one that value gives. That the state carries the answers and a counter of free values is the model's choice (log entry
9); the statement holds for every value of the counter. -/
def Obligations.UnscriptedReadsTakeFreeValues : Prop :=
  (∀ (s : State), s.phase = .busyPoll → s.spi.statusNext = [] →
    step s = .next { s with
      spi := { s.spi with drawn := s.spi.drawn + 1 }
      trace := s.trace ++ [.rdStatus (Config.freeStatus s.spi.drawn)]
      phase := if (s.params.decodeStatus (Config.freeStatus s.spi.drawn)).busy then .busyPoll else .awaitOpcode }) ∧
  (∀ (s : State) (rem : U24), s.phase = .txPoll → s.regs.rem = some rem → s.spi.statusNext = [] →
    step s = .next { s with
      spi := { s.spi with drawn := s.spi.drawn + 1 }
      trace := s.trace ++ [.rdStatus (Config.freeStatus s.spi.drawn)]
      regs :=
        if (s.params.decodeStatus (Config.freeStatus s.spi.drawn)).txLevel < s.params.txHwm then
          { s.regs with n := some (min 4 rem.toNat), j := some 0, word := some 0#32 }
        else s.regs
      phase :=
        if (s.params.decodeStatus (Config.freeStatus s.spi.drawn)).txLevel < s.params.txHwm then .txFill else .txPoll }) ∧
  (∀ (s : State), s.phase = .rxPoll → s.spi.statusNext = [] →
    step s = .next { s with
      spi := { s.spi with drawn := s.spi.drawn + 1 }
      trace := s.trace ++ [.rdStatus (Config.freeStatus s.spi.drawn)]
      phase := if (s.params.decodeStatus (Config.freeStatus s.spi.drawn)).rxLevel ≠ 0 then .rxPop else .rxPoll }) ∧
  (∀ (s : State) (rem : U24), s.phase = .rxPop → s.regs.rem = some rem → s.spi.rxWords = [] →
    step s = .next { s with
      spi := { s.spi with drawn := s.spi.drawn + 1 }
      trace := s.trace ++ [.rdDataFifo (Config.freeData s.spi.drawn)]
      regs := { s.regs with
        word := some (Config.freeData s.spi.drawn), n := some (min 4 rem.toNat), j := some 0 }
      phase := .rxEmit })

/-- R67: packing is little-endian with byte 0 in the low-order position, the lanes a chunk does not fill are 0 (R168), and
unpacking gives back the bytes that were packed. -/
def Obligations.PackingRoundTrip : Prop :=
  (∀ b0 b1 b2 b3 : Byte,
    orLane (orLane (orLane (orLane 0#32 0 b0) 1 b1) 2 b2) 3 b3 =
      b0.setWidth 32 ||| b1.setWidth 32 <<< 8 ||| b2.setWidth 32 <<< 16 ||| b3.setWidth 32 <<< 24 ∧
    lanes (b0.setWidth 32 ||| b1.setWidth 32 <<< 8 ||| b2.setWidth 32 <<< 16 ||| b3.setWidth 32 <<< 24) =
      [b0, b1, b2, b3]) ∧
  (∀ bs : List Byte, bs.length ≤ 4 →
    (bs.zipIdx.foldl (fun w p => orLane w p.2 p.1) 0#32) = packWord bs ∧ (lanes (packWord bs)).take bs.length = bs) ∧
  ∀ w : Word, packWord (lanes w) = w ∧
    lanes w = [w.extractLsb' 0 8, w.extractLsb' 8 8, w.extractLsb' 16 8, w.extractLsb' 24 8]

/-! ### Whole operations -/

/-- R160, R163, R176: a write. The host sends the frame of `O_SPIOP cl, 0` with `cl` command bytes and `cl` data bytes, and
every poll shows capacity and not busy: the engine performs exactly the events of the command's pseudocode, in order, replies
one `ACK`, and is back in `AWAIT_OPCODE` with the bytes that follow untouched. -/
def Obligations.WriteOperationIsServed : Prop :=
  ∀ (s : State) (cl : U24) (cmd data rest : List Byte) (v : Word) (vs : List Word),
    s.phase = .awaitOpcode → s.ready = true → cmd.length = cl.toNat → data.length = cl.toNat →
    s.tin = (Frame.mk (.oSpiop cl 0#24) cmd data).bytes ++ rest →
    s.spi.statusNext = List.replicate (wordCount cl.toNat + 1) v ++ vs →
    s.params.hasCapacity v = true → s.params.isBusy v = false →
    (∀ k, s.params.ctrlLenBits = some k → cl.toNat < 2 ^ k) →
    (∀ d, s.params.cmdFifoDepth = some d → cl.toNat ≤ d) →
    ∃ n t, runFor n s = .next t ∧ t.phase = .awaitOpcode ∧ t.tin = rest ∧ t.tout = s.tout ++ [0x06#8] ∧
      t.trace = s.trace ++ (encode (.oSpiop cl 0#24)).map .get ++ [.put 0x06#8, .wrCtrl 3#3 cl cl] ++ commandEvents cmd ++
        transmitEvents v data ++ [.rdStatus v] ∧
      t.spi = { s.spi with
        ctrl := ⟨3#3, cl, cl⟩
        cmdFifo := s.spi.cmdFifo ++ cmd
        txFifo := s.spi.txFifo ++ (chunks data).map packWord
        statusNext := vs } ∧
      t.fault = s.fault ∧ t.ready = true ∧ t.params = s.params

/-- R160, R163, R176: a read. The host sends the frame of `O_SPIOP cl, rl` with `rl` not 0, the SPI master returns the words
`ws`, and every poll shows data and not busy: the engine takes no data byte from the host, replies `ACK` and exactly `rl`
bytes, lane 0 of each word first, and performs exactly the events of the command's pseudocode. -/
def Obligations.ReadOperationIsServed : Prop :=
  ∀ (s : State) (cl rl : U24) (cmd rest : List Byte) (ws ws' vs : List Word) (v : Word),
    s.phase = .awaitOpcode → s.ready = true → rl ≠ 0#24 → cmd.length = cl.toNat →
    s.tin = (Frame.mk (.oSpiop cl rl) cmd []).bytes ++ rest →
    ws.length = wordCount rl.toNat → s.spi.rxWords = ws ++ ws' →
    s.spi.statusNext = List.replicate (wordCount rl.toNat + 1) v ++ vs →
    s.params.hasData v = true → s.params.isBusy v = false →
    (∀ k, s.params.ctrlLenBits = some k → rl.toNat < 2 ^ k ∧ cl.toNat < 2 ^ k) →
    (∀ d, s.params.cmdFifoDepth = some d → cl.toNat ≤ d) →
    ∃ n t, runFor n s = .next t ∧ t.phase = .awaitOpcode ∧ t.tin = rest ∧
      t.tout = s.tout ++ 0x06#8 :: (ws.flatMap lanes).take rl.toNat ∧
      t.trace = s.trace ++ (encode (.oSpiop cl rl)).map .get ++ [.put 0x06#8, .wrCtrl 5#3 rl cl] ++ commandEvents cmd ++
        receiveEvents v rl.toNat ws ++ [.rdStatus v] ∧
      t.spi = { s.spi with
        ctrl := ⟨5#3, rl, cl⟩
        cmdFifo := s.spi.cmdFifo ++ cmd
        rxWords := ws'
        statusNext := vs } ∧
      t.fault = s.fault ∧ t.ready = true ∧ t.params = s.params

/-- R178 (a): the zero-length operation runs as a transmit of length 0: the `ACK`, the control write, and status reads until
not busy, under every choice of the open parameters. No command byte and no data byte is taken. -/
def Obligations.ZeroLengthOperation : Prop :=
  ∀ (s : State) (rest : List Byte) (v : Word) (vs : List Word), s.phase = .awaitOpcode → s.ready = true →
    s.tin = 0x13#8 :: List.replicate 6 0x00#8 ++ rest → s.spi.statusNext = v :: vs → s.params.isBusy v = false →
    ∃ t, runFor 10 s = .next t ∧ t.phase = .awaitOpcode ∧ t.tin = rest ∧ t.tout = s.tout ++ [0x06#8] ∧
      t.trace = s.trace ++ .get 0x13#8 :: List.replicate 6 (.get 0x00#8) ++ [.put 0x06#8, .wrCtrl 3#3 0#24 0#24, .rdStatus v] ∧
      t.spi = { s.spi with ctrl := ⟨3#3, 0#24, 0#24⟩, statusNext := vs }

/-- R284: under the five liveness premises, every command the host sends completely reaches `AWAIT_OPCODE` again after finitely
many steps, in any run among any actions of the environment, whenever the bytes arrive and whenever the transport accepts. For
any number of frames begun at the head of `tin`: the engine takes exactly their bytes and puts, for each in turn, a reply of the
rule's length (R99) that begins as the opcode map says. The two faults of undefined cases are excluded by hypothesis (R180,
R181). The form of the premises is the model's (log entry 21). -/
def Obligations.CompleteFramesAreServed : Prop :=
  ∀ (e : Schedule) (s : State) (frames : List Frame), s.phase = .awaitOpcode →
    (∀ f ∈ frames, f.wf = true ∧ f.instr.fits s.params) →
    e.liveHostIn s frames → e.liveHostOut s → e.liveTx s → e.liveRx s → e.liveBusy s →
    ∃ k t, e.reaches s k t ∧ t.phase = .awaitOpcode ∧
      takenBytes t.trace = takenBytes s.trace ++ frames.flatMap Frame.bytes ∧
      ∃ replies : List (List Byte), givenBytes t.trace = givenBytes s.trace ++ replies.flatten ∧
        List.Forall₂ (fun f r => r.length = f.instr.replyLength ∧ replyBytes s.params f.instr <+: r) frames replies

/-! ### Waits and faults -/

/-- R61: `Get` in the four phases that perform it: a hold changes nothing, and otherwise the head of `tin` is taken. -/
def Obligations.GetTakesHeadOrHolds : Prop :=
  ∀ s : State, s.coherent → s.phase ∈ [Phase.awaitOpcode, .arg, .cmdGet, .txFill] →
    (s.tin = [] → step s = .next s) ∧
    ∀ b rest, s.tin = b :: rest → ∃ t, step s = .next t ∧ t.tin = rest ∧ t.trace = s.trace ++ [.get b]

/-- R62: `Put` in the two phases that perform it: a hold changes nothing, and otherwise the byte is appended to `tout`. -/
def Obligations.PutAppendsOrHolds : Prop :=
  ∀ s : State, s.coherent → s.phase ∈ [Phase.reply, .rxEmit] →
    (s.ready = false → step s = .next s) ∧
    (s.ready = true → ∃ b t, step s = .next t ∧ t.tout = s.tout ++ [b] ∧ t.trace = s.trace ++ [.put b])

/-- R124, R242: there is no timeout. A hold that is not lifted lasts for any number of steps. -/
def Obligations.HoldsHaveNoTimeout : Prop :=
  ∀ (s : State) (n : Nat), s.coherent →
    (s.tin = [] ∧ s.phase ∈ [Phase.awaitOpcode, .arg, .cmdGet, .txFill] ∨
      s.ready = false ∧ s.phase ∈ [Phase.reply, .rxEmit]) →
    runFor n s = .next s

/-- R173, R242, R284: the completion poll spins while every status read shows busy, each read a real event, and the first
read that shows not busy ends the command. -/
def Obligations.BusySpinEndsAtFirstIdleRead : Prop :=
  ∀ (s : State) (k : Nat), s.phase = .busyPoll → (∀ i, i < k → s.params.isBusy (s.statusAhead i) = true) →
    (∃ t, runFor k s = .next t ∧ t.phase = .busyPoll ∧
      t.trace = s.trace ++ (List.range k).map (fun i => .rdStatus (s.statusAhead i))) ∧
    (s.params.isBusy (s.statusAhead k) = false →
      ∃ t, runFor (k + 1) s = .next t ∧ t.phase = .awaitOpcode ∧ t.tin = s.tin ∧ t.tout = s.tout ∧
        t.trace = s.trace ++ (List.range (k + 1)).map (fun i => .rdStatus (s.statusAhead i)))

/-- R167, R170, R242, R284: the two burst polls spin while no status read shows capacity, or data, and end at the first read
that does. -/
def Obligations.BurstPollsEndAtFirstReadyRead : Prop :=
  ∀ (s : State) (k : Nat) (rem : U24), s.regs.rem = some rem →
    (s.phase = .txPoll → (∀ i, i < k → s.params.hasCapacity (s.statusAhead i) = false) →
      s.params.hasCapacity (s.statusAhead k) = true →
      ∃ t, runFor (k + 1) s = .next t ∧ t.phase = .txFill ∧
        t.trace = s.trace ++ (List.range (k + 1)).map (fun i => .rdStatus (s.statusAhead i))) ∧
    (s.phase = .rxPoll → (∀ i, i < k → s.params.hasData (s.statusAhead i) = false) →
      s.params.hasData (s.statusAhead k) = true →
      ∃ t, runFor (k + 1) s = .next t ∧ t.phase = .rxPop ∧
        t.trace = s.trace ++ (List.range (k + 1)).map (fun i => .rdStatus (s.statusAhead i)))

/-- R243: `FAULTED` is final: no number of steps performs an event, changes the phase or clears the recorded name. That a
step there answers the same state, rather than stopping, is the model's reading (log entry 6). -/
def Obligations.FaultedIsFinal : Prop :=
  ∀ (s : State) (n : Nat), s.phase = .faulted → runFor n s = .next s

/-! ### The machine as a whole -/

/-- R7, R11, R21: a step performs exactly one event, of its phase's kind, or holds with the state unchanged, or enters
`FAULTED` with a name recorded and nothing else changed (log entry 6). -/
def Obligations.OneEventPerStep : Prop :=
  ∀ s t : State, step s = .next t →
    t = s ∨ (∃ f, t = { s with phase := .faulted, fault := some f }) ∨
    ∃ e, s.phase.performs e = true ∧ t.trace = s.trace ++ [e]

/-- R132, R179: a step leads only to the phases its rule names, or holds, or enters `FAULTED`; and only `SPI_CTRL` and
`CMD_PUT` can raise the two faults of undefined cases. -/
def Obligations.PhaseTransitions : Prop :=
  ∀ s t : State, step s = .next t →
    t = s ∨ (t.trace ≠ s.trace ∧ t.fault = s.fault ∧ t.phase ∈ s.phase.successors) ∨
    (t.phase = .faulted ∧
      (t.fault = some .ctrlFieldOverflow ∧ s.phase = .spiCtrl ∨ t.fault = some .cmdFifoOverrun ∧ s.phase = .cmdPut ∨
        t.fault = some .unwrittenRead))

/-- R33, R175: the registers are coherent: a step keeps what each phase needs of them, from every state that has it. -/
def Obligations.StepKeepsRegistersCoherent : Prop :=
  ∀ s t : State, s.coherent → step s = .next t → t.coherent

/-- R33: no rule reads a register before the same command writes it: from every coherent state the engine answers a next
state and does not raise `UnwrittenRead`. -/
def Obligations.CoherentStateNeverReadsUnwritten : Prop :=
  ∀ s : State, s.coherent → s.fault ≠ some .unwrittenRead →
    ∃ t, step s = .next t ∧ t.fault ≠ some .unwrittenRead

/-- R20, R33: in any run of the engine among any actions of its environment, from any coherent state, no step stops, the
registers stay coherent and the parameters stay as they were. -/
def Obligations.EveryRunStaysCoherent : Prop :=
  ∀ (turns : List Turn) (s : State), s.coherent →
    ∃ t, runTurns turns s = .next t ∧ t.coherent ∧ t.params = s.params

/-- R278: between operations the register file is left idle: a control write follows a status read that showed `busy = false`,
with no other register-file event since, or is the first register-file event of the run. Every step keeps it. -/
def Obligations.OperationsAreSerialised : Prop :=
  ∀ s t : State, s.serialised → step s = .next t → t.serialised

/-- R41, R282: every data-FIFO write follows a status read that showed capacity, and every data-FIFO read one that showed
data, with no other register-file event between. Every step keeps it. -/
def Obligations.TransfersFollowPolls : Prop :=
  ∀ s t : State, s.polled → step s = .next t → t.polled

/-- R41: in a coherent state the engine writes the data FIFO only in transmit mode and reads it only in receive mode. -/
def Obligations.DataFifoFollowsDirection : Prop :=
  ∀ (s t : State) (e : Event), s.coherent → step s = .next t → t.trace = s.trace ++ [e] →
    (∀ w, e = .wrDataFifo w → s.regs.mode = some .tx) ∧ (∀ w, e = .rdDataFifo w → s.regs.mode = some .rx)

/-- R37, R42, R63, R64, R65: an event on the register file is its phase's one access of the table, so that `CTRL` and
`CMD_FIFO` are never read and `STATUS` never written; the other phases make none; a control write carries mode 3 or 5; the
fields of `STATUS` are never the engine's to change, and those of `CTRL` change only in `SPI_CTRL`. -/
def Obligations.NoOtherRegisterAccess : Prop :=
  ∀ s t : State, step s = .next t →
    (∀ e, t.trace = s.trace ++ [e] →
      s.phase.performs e = true ∧ e.register = s.phase.access ∧ (∀ m bl cl, e = .wrCtrl m bl cl → m = 3#3 ∨ m = 5#3)) ∧
    t.spi.status = s.spi.status ∧ (s.phase ≠ .spiCtrl → t.spi.ctrl = s.spi.ctrl)

/-- R44: bytes are neither lost, duplicated nor reordered: what has been taken and what waits in `tin` is the same sequence
before and after a step, and `tout` grows by exactly the bytes put. -/
def Obligations.TransportConservesBytes : Prop :=
  ∀ s t : State, step s = .next t →
    takenBytes t.trace ++ t.tin = takenBytes s.trace ++ s.tin ∧
    ∃ bs, t.tout = s.tout ++ bs ∧ givenBytes t.trace = givenBytes s.trace ++ bs

/-- R40, R70: the command FIFO and the transmit side of the data FIFO grow by exactly what the engine pushes, in order. -/
def Obligations.PushesReachTheFifos : Prop :=
  ∀ s t : State, step s = .next t →
    (∃ bs, t.spi.cmdFifo = s.spi.cmdFifo ++ bs ∧ pushedBytes t.trace = pushedBytes s.trace ++ bs) ∧
    ∃ ws, t.spi.txFifo = s.spi.txFifo ++ ws ∧ pushedWords t.trace = pushedWords s.trace ++ ws

/-- R35: the constants of the block: their values, and that no step of the engine and no action of the environment changes
the parameters they come from. -/
def Obligations.ConstantsNeverChange : Prop :=
  (Machine.ack = 0x06#8 ∧ nak = 0x15#8 ∧ busSpi = 0x08#8 ∧ ifaceVersion = 0x0001#16 ∧ serbufSize = 0xFFFF#16 ∧ Mode.tx.field = 3#3 ∧
    Mode.rx.field = 5#3 ∧ cmdmap = [0x3F#8, 0x00#8, 0x2D#8, 0x00#8] ++ List.replicate 28 0x00#8) ∧
  ∀ (s : State), (∀ t, step s = .next t → t.params = s.params) ∧ (∀ a, (s.env a).params = s.params) ∧
    s.resetEngine.params = s.params

/-! ### Reset and the register file -/

/-- R45, R270: after reset the phase is `AWAIT_OPCODE`, every internal register is unwritten and no fault is recorded; and
resetting the engine in any environment leaves the same. -/
def Obligations.ResetState : Prop :=
  (State.reset.phase = .awaitOpcode ∧ State.reset.regs = Regs.unwritten ∧ State.reset.fault = none) ∧
  ∀ s : State, s.resetEngine.phase = .awaitOpcode ∧ s.resetEngine.regs = Regs.unwritten ∧
    s.resetEngine.fault = none ∧ s.resetEngine.tin = s.tin ∧ s.resetEngine.tout = s.tout ∧
    s.resetEngine.spi = s.spi ∧ s.resetEngine.params = s.params

/-- R271: reset performs no event, in any environment; the first event is the `Get` of the first opcode, and with no byte
from the host there is none at all. -/
def Obligations.ResetPerformsNoEvent : Prop :=
  ∀ s : State, s.resetEngine.trace = [] ∧ s.resetEngine.tout = s.tout ∧ s.resetEngine.spi = s.spi ∧
    (s.tin = [] → ∀ n, runFor n s.resetEngine = .next s.resetEngine) ∧
    ∀ b rest, s.tin = b :: rest → ∃ t, step s.resetEngine = .next t ∧ t.trace = [.get b]

/-- The invariants hold at reset, in any environment. -/
def Obligations.InvariantsHoldAtReset : Prop :=
  (State.reset.coherent ∧ State.reset.serialised ∧ State.reset.polled) ∧
  ∀ s : State, s.resetEngine.coherent ∧ s.resetEngine.serialised ∧ s.resetEngine.polled

/-- R64, R69: the raw form of every event. The five events on the register file are each one access to their register's
address, the control write's words being `P_CTRL_ENC(mode, burst_len, cmd_len)`; the transport's events are none. Every register
address is 4-aligned by construction, and every 4-aligned map of the four registers is one of them (log entry 7). The bits of a
command-FIFO write above the byte are any value (log entry 23). -/
def Obligations.BusAccessesAreAligned : Prop :=
  ∀ (p : Params) (upper : BitVec 24),
    (∀ m bl cl, (Event.wrCtrl m bl cl).busAccess p upper =
      some ⟨.ctrl, p.regAddr .ctrl, .write, Config.ctrlEnc m bl cl⟩) ∧
    (∀ b, ∃ w, (Event.wrCmdFifo b).busAccess p upper = some ⟨.cmdFifo, p.regAddr .cmdFifo, .write, [w]⟩ ∧
      w.extractLsb' 0 8 = b ∧ w.extractLsb' 8 24 = upper) ∧
    (∀ w, (Event.wrDataFifo w).busAccess p upper = some ⟨.dataFifo, p.regAddr .dataFifo, .write, [w]⟩) ∧
    (∀ v, (Event.rdStatus v).busAccess p upper = some ⟨.status, p.regAddr .status, .read, [v]⟩) ∧
    (∀ v, (Event.rdDataFifo v).busAccess p upper = some ⟨.dataFifo, p.regAddr .dataFifo, .read, [v]⟩) ∧
    (∀ b, (Event.get b).busAccess p upper = none ∧ (Event.put b).busAccess p upper = none) ∧
    (∀ r, 4 ∣ p.regAddr r) ∧
    ∀ addr : SpiReg → Nat, (∀ r, 4 ∣ addr r) → ∃ q : RegIndices, ∀ r, ({ p with regIndices := q } : Params).regAddr r = addr r
end

