-- ==== Sys2Proof/Laws/Decode.lean ====
section
/-! SUPPORT. The decoder's own small lemmas: the opcode rows cover every byte, and what `decode` answers by the opcode's
format. -/

namespace Sys2Proof

/-- R94: the decoder is total on all 256 byte values. -/
theorem decodeOpcode_isSome (op : Byte) (h : fixedArgs op = 0) : (decodeOpcode op).isSome = true := by
  revert op; decide

/-- R92, R94: a command without arguments is read from its opcode byte, and is of that opcode. -/
theorem decodeOpcode_spec (op : Byte) : ∀ i, decodeOpcode op = some i → fixedArgs op = 0 →
    i.wf = true ∧ i.opcode = op ∧ i.argBytes = [] := by
  have key : ∀ op : Byte, fixedArgs op = 0 → ((decodeOpcode op).all fun i =>
      i.wf && i.opcode == op && i.argBytes.isEmpty) = true := by decide
  intro i hi h0
  have := key op h0
  simp only [hi, Option.all_some, Bool.and_eq_true, beq_iff_eq, List.isEmpty_iff] at this
  exact ⟨this.1.1, this.1.2, this.2⟩

/-- The three opcodes with arguments. -/
theorem fixedArgs_eq_zero_iff (op : Byte) : fixedArgs op = 0 ↔ op ≠ 0x12#8 ∧ op ≠ 0x13#8 ∧ op ≠ 0x15#8 := by
  revert op; decide

/-- Format F0 (R95): a command without arguments leaves every byte after its opcode. -/
theorem decode_f0 {op : Byte} (h : fixedArgs op = 0) (rest : List Byte) :
    ∃ i, decodeOpcode op = some i ∧ decode (op :: rest) = .ok (i, rest) := by
  obtain ⟨i, hi⟩ := Option.isSome_iff_exists.mp (decodeOpcode_isSome op h)
  obtain ⟨h2, h3, h5⟩ := (fixedArgs_eq_zero_iff op).mp h
  exact ⟨i, hi, by simp [decode, h2, h3, h5, hi]⟩

/-- Format F1 (R95), `S_BUSTYPE`. -/
@[simp] theorem decode_sBustype (a0 : Byte) (rest : List Byte) :
    decode (0x12#8 :: a0 :: rest) = .ok (.sBustype a0, rest) := rfl

/-- Format F1 (R95), `S_PIN_STATE`. -/
@[simp] theorem decode_sPinState (a0 : Byte) (rest : List Byte) :
    decode (0x15#8 :: a0 :: rest) = .ok (.sPinState a0, rest) := rfl

/-- Format FS (R95), `O_SPIOP`. -/
@[simp] theorem decode_oSpiop (c0 c1 c2 r0 r1 r2 : Byte) (rest : List Byte) :
    decode (0x13#8 :: c0 :: c1 :: c2 :: r0 :: r1 :: r2 :: rest) =
      .ok (.oSpiop (u24OfBytes c0 c1 c2) (u24OfBytes r0 r1 r2), rest) := rfl

end Sys2Proof
end

