-- ==== Sys2Proof/Laws/State.lean ====
section
/-! SUPPORT. One lemma per field per update: what each named update of the state leaves in each field, true by rfl, so that
no proof unfolds a record update. -/

namespace Sys2Proof.Machine

@[simp] theorem State.emit_phase (s : State) (e : Event) : (s.emit e).phase = s.phase := rfl
@[simp] theorem State.emit_fault (s : State) (e : Event) : (s.emit e).fault = s.fault := rfl
@[simp] theorem State.emit_regs (s : State) (e : Event) : (s.emit e).regs = s.regs := rfl
@[simp] theorem State.emit_tin (s : State) (e : Event) : (s.emit e).tin = s.tin := rfl
@[simp] theorem State.emit_tout (s : State) (e : Event) : (s.emit e).tout = s.tout := rfl
@[simp] theorem State.emit_ready (s : State) (e : Event) : (s.emit e).ready = s.ready := rfl
@[simp] theorem State.emit_spi (s : State) (e : Event) : (s.emit e).spi = s.spi := rfl
@[simp] theorem State.emit_trace (s : State) (e : Event) : (s.emit e).trace = s.trace ++ [e] := rfl
@[simp] theorem State.emit_params (s : State) (e : Event) : (s.emit e).params = s.params := rfl

@[simp] theorem State.setPhase_phase (s : State) (p : Phase) : (s.setPhase p).phase = p := rfl
@[simp] theorem State.setPhase_fault (s : State) (p : Phase) : (s.setPhase p).fault = s.fault := rfl
@[simp] theorem State.setPhase_regs (s : State) (p : Phase) : (s.setPhase p).regs = s.regs := rfl
@[simp] theorem State.setPhase_tin (s : State) (p : Phase) : (s.setPhase p).tin = s.tin := rfl
@[simp] theorem State.setPhase_tout (s : State) (p : Phase) : (s.setPhase p).tout = s.tout := rfl
@[simp] theorem State.setPhase_ready (s : State) (p : Phase) : (s.setPhase p).ready = s.ready := rfl
@[simp] theorem State.setPhase_spi (s : State) (p : Phase) : (s.setPhase p).spi = s.spi := rfl
@[simp] theorem State.setPhase_trace (s : State) (p : Phase) : (s.setPhase p).trace = s.trace := rfl
@[simp] theorem State.setPhase_params (s : State) (p : Phase) : (s.setPhase p).params = s.params := rfl

@[simp] theorem State.raise_phase (s : State) (f : FaultName) : (s.raise f).phase = .faulted := rfl
@[simp] theorem State.raise_fault (s : State) (f : FaultName) : (s.raise f).fault = some f := rfl
@[simp] theorem State.raise_regs (s : State) (f : FaultName) : (s.raise f).regs = s.regs := rfl
@[simp] theorem State.raise_tin (s : State) (f : FaultName) : (s.raise f).tin = s.tin := rfl
@[simp] theorem State.raise_tout (s : State) (f : FaultName) : (s.raise f).tout = s.tout := rfl
@[simp] theorem State.raise_ready (s : State) (f : FaultName) : (s.raise f).ready = s.ready := rfl
@[simp] theorem State.raise_spi (s : State) (f : FaultName) : (s.raise f).spi = s.spi := rfl
@[simp] theorem State.raise_trace (s : State) (f : FaultName) : (s.raise f).trace = s.trace := rfl
@[simp] theorem State.raise_params (s : State) (f : FaultName) : (s.raise f).params = s.params := rfl

@[simp] theorem State.queueReply_phase (s : State) (r : List Byte) (a : After) :
    (s.queueReply r a).phase = .reply := rfl
@[simp] theorem State.queueReply_fault (s : State) (r : List Byte) (a : After) :
    (s.queueReply r a).fault = s.fault := rfl
@[simp] theorem State.queueReply_regs (s : State) (r : List Byte) (a : After) :
    (s.queueReply r a).regs = { s.regs with reply := some r, after := some a } := rfl
@[simp] theorem State.queueReply_tin (s : State) (r : List Byte) (a : After) : (s.queueReply r a).tin = s.tin := rfl
@[simp] theorem State.queueReply_tout (s : State) (r : List Byte) (a : After) : (s.queueReply r a).tout = s.tout := rfl
@[simp] theorem State.queueReply_ready (s : State) (r : List Byte) (a : After) :
    (s.queueReply r a).ready = s.ready := rfl
@[simp] theorem State.queueReply_spi (s : State) (r : List Byte) (a : After) : (s.queueReply r a).spi = s.spi := rfl
@[simp] theorem State.queueReply_trace (s : State) (r : List Byte) (a : After) :
    (s.queueReply r a).trace = s.trace := rfl
@[simp] theorem State.queueReply_params (s : State) (r : List Byte) (a : After) :
    (s.queueReply r a).params = s.params := rfl

@[simp] theorem State.protocolError_phase (s : State) : (s.protocolError).phase = .reply := rfl
@[simp] theorem State.protocolError_fault (s : State) : (s.protocolError).fault = s.fault := rfl
@[simp] theorem State.protocolError_regs (s : State) :
    (s.protocolError).regs = { s.regs with reply := some [nak], after := some .awaitOpcode } := rfl
@[simp] theorem State.protocolError_tin (s : State) : (s.protocolError).tin = s.tin := rfl
@[simp] theorem State.protocolError_tout (s : State) : (s.protocolError).tout = s.tout := rfl
@[simp] theorem State.protocolError_ready (s : State) : (s.protocolError).ready = s.ready := rfl
@[simp] theorem State.protocolError_spi (s : State) : (s.protocolError).spi = s.spi := rfl
@[simp] theorem State.protocolError_trace (s : State) : (s.protocolError).trace = s.trace := rfl
@[simp] theorem State.protocolError_params (s : State) : (s.protocolError).params = s.params := rfl

@[simp] theorem State.writeCtrl_phase (s : State) (m : BitVec 3) (bl cl : U24) :
    (s.writeCtrl m bl cl).phase = s.phase := rfl
@[simp] theorem State.writeCtrl_fault (s : State) (m : BitVec 3) (bl cl : U24) :
    (s.writeCtrl m bl cl).fault = s.fault := rfl
@[simp] theorem State.writeCtrl_regs (s : State) (m : BitVec 3) (bl cl : U24) :
    (s.writeCtrl m bl cl).regs = s.regs := rfl
@[simp] theorem State.writeCtrl_tin (s : State) (m : BitVec 3) (bl cl : U24) : (s.writeCtrl m bl cl).tin = s.tin := rfl
@[simp] theorem State.writeCtrl_tout (s : State) (m : BitVec 3) (bl cl : U24) :
    (s.writeCtrl m bl cl).tout = s.tout := rfl
@[simp] theorem State.writeCtrl_ready (s : State) (m : BitVec 3) (bl cl : U24) :
    (s.writeCtrl m bl cl).ready = s.ready := rfl
@[simp] theorem State.writeCtrl_trace (s : State) (m : BitVec 3) (bl cl : U24) :
    (s.writeCtrl m bl cl).trace = s.trace ++ [.wrCtrl m bl cl] := rfl
@[simp] theorem State.writeCtrl_params (s : State) (m : BitVec 3) (bl cl : U24) :
    (s.writeCtrl m bl cl).params = s.params := rfl
@[simp] theorem State.writeCtrl_spi_ctrl (s : State) (m : BitVec 3) (bl cl : U24) :
    (s.writeCtrl m bl cl).spi.ctrl = ⟨m, bl, cl⟩ := rfl
@[simp] theorem State.writeCtrl_spi_status (s : State) (m : BitVec 3) (bl cl : U24) :
    (s.writeCtrl m bl cl).spi.status = s.spi.status := rfl
@[simp] theorem State.writeCtrl_spi_cmdFifo (s : State) (m : BitVec 3) (bl cl : U24) :
    (s.writeCtrl m bl cl).spi.cmdFifo = s.spi.cmdFifo := rfl
@[simp] theorem State.writeCtrl_spi_txFifo (s : State) (m : BitVec 3) (bl cl : U24) :
    (s.writeCtrl m bl cl).spi.txFifo = s.spi.txFifo := rfl
@[simp] theorem State.writeCtrl_spi_rxWords (s : State) (m : BitVec 3) (bl cl : U24) :
    (s.writeCtrl m bl cl).spi.rxWords = s.spi.rxWords := rfl
@[simp] theorem State.writeCtrl_spi_statusNext (s : State) (m : BitVec 3) (bl cl : U24) :
    (s.writeCtrl m bl cl).spi.statusNext = s.spi.statusNext := rfl
@[simp] theorem State.writeCtrl_spi_drawn (s : State) (m : BitVec 3) (bl cl : U24) :
    (s.writeCtrl m bl cl).spi.drawn = s.spi.drawn := rfl

@[simp] theorem State.writeCmdFifo_phase (s : State) (b : Byte) : (s.writeCmdFifo b).phase = s.phase := rfl
@[simp] theorem State.writeCmdFifo_fault (s : State) (b : Byte) : (s.writeCmdFifo b).fault = s.fault := rfl
@[simp] theorem State.writeCmdFifo_regs (s : State) (b : Byte) : (s.writeCmdFifo b).regs = s.regs := rfl
@[simp] theorem State.writeCmdFifo_tin (s : State) (b : Byte) : (s.writeCmdFifo b).tin = s.tin := rfl
@[simp] theorem State.writeCmdFifo_tout (s : State) (b : Byte) : (s.writeCmdFifo b).tout = s.tout := rfl
@[simp] theorem State.writeCmdFifo_ready (s : State) (b : Byte) : (s.writeCmdFifo b).ready = s.ready := rfl
@[simp] theorem State.writeCmdFifo_trace (s : State) (b : Byte) :
    (s.writeCmdFifo b).trace = s.trace ++ [.wrCmdFifo b] := rfl
@[simp] theorem State.writeCmdFifo_params (s : State) (b : Byte) : (s.writeCmdFifo b).params = s.params := rfl
@[simp] theorem State.writeCmdFifo_spi_ctrl (s : State) (b : Byte) : (s.writeCmdFifo b).spi.ctrl = s.spi.ctrl := rfl
@[simp] theorem State.writeCmdFifo_spi_status (s : State) (b : Byte) :
    (s.writeCmdFifo b).spi.status = s.spi.status := rfl
@[simp] theorem State.writeCmdFifo_spi_cmdFifo (s : State) (b : Byte) :
    (s.writeCmdFifo b).spi.cmdFifo = s.spi.cmdFifo ++ [b] := rfl
@[simp] theorem State.writeCmdFifo_spi_txFifo (s : State) (b : Byte) :
    (s.writeCmdFifo b).spi.txFifo = s.spi.txFifo := rfl
@[simp] theorem State.writeCmdFifo_spi_rxWords (s : State) (b : Byte) :
    (s.writeCmdFifo b).spi.rxWords = s.spi.rxWords := rfl
@[simp] theorem State.writeCmdFifo_spi_statusNext (s : State) (b : Byte) :
    (s.writeCmdFifo b).spi.statusNext = s.spi.statusNext := rfl
@[simp] theorem State.writeCmdFifo_spi_drawn (s : State) (b : Byte) : (s.writeCmdFifo b).spi.drawn = s.spi.drawn := rfl

@[simp] theorem State.writeDataFifo_phase (s : State) (w : Word) : (s.writeDataFifo w).phase = s.phase := rfl
@[simp] theorem State.writeDataFifo_fault (s : State) (w : Word) : (s.writeDataFifo w).fault = s.fault := rfl
@[simp] theorem State.writeDataFifo_regs (s : State) (w : Word) : (s.writeDataFifo w).regs = s.regs := rfl
@[simp] theorem State.writeDataFifo_tin (s : State) (w : Word) : (s.writeDataFifo w).tin = s.tin := rfl
@[simp] theorem State.writeDataFifo_tout (s : State) (w : Word) : (s.writeDataFifo w).tout = s.tout := rfl
@[simp] theorem State.writeDataFifo_ready (s : State) (w : Word) : (s.writeDataFifo w).ready = s.ready := rfl
@[simp] theorem State.writeDataFifo_trace (s : State) (w : Word) :
    (s.writeDataFifo w).trace = s.trace ++ [.wrDataFifo w] := rfl
@[simp] theorem State.writeDataFifo_params (s : State) (w : Word) : (s.writeDataFifo w).params = s.params := rfl
@[simp] theorem State.writeDataFifo_spi_ctrl (s : State) (w : Word) : (s.writeDataFifo w).spi.ctrl = s.spi.ctrl := rfl
@[simp] theorem State.writeDataFifo_spi_status (s : State) (w : Word) :
    (s.writeDataFifo w).spi.status = s.spi.status := rfl
@[simp] theorem State.writeDataFifo_spi_cmdFifo (s : State) (w : Word) :
    (s.writeDataFifo w).spi.cmdFifo = s.spi.cmdFifo := rfl
@[simp] theorem State.writeDataFifo_spi_txFifo (s : State) (w : Word) :
    (s.writeDataFifo w).spi.txFifo = s.spi.txFifo ++ [w] := rfl
@[simp] theorem State.writeDataFifo_spi_rxWords (s : State) (w : Word) :
    (s.writeDataFifo w).spi.rxWords = s.spi.rxWords := rfl
@[simp] theorem State.writeDataFifo_spi_statusNext (s : State) (w : Word) :
    (s.writeDataFifo w).spi.statusNext = s.spi.statusNext := rfl
@[simp] theorem State.writeDataFifo_spi_drawn (s : State) (w : Word) :
    (s.writeDataFifo w).spi.drawn = s.spi.drawn := rfl

@[simp] theorem State.readStatus_phase (s : State) : (s.readStatus).phase = s.phase := rfl
@[simp] theorem State.readStatus_fault (s : State) : (s.readStatus).fault = s.fault := rfl
@[simp] theorem State.readStatus_regs (s : State) : (s.readStatus).regs = s.regs := rfl
@[simp] theorem State.readStatus_tin (s : State) : (s.readStatus).tin = s.tin := rfl
@[simp] theorem State.readStatus_tout (s : State) : (s.readStatus).tout = s.tout := rfl
@[simp] theorem State.readStatus_ready (s : State) : (s.readStatus).ready = s.ready := rfl
@[simp] theorem State.readStatus_trace (s : State) : (s.readStatus).trace = s.trace ++ [.rdStatus s.nextStatus] := rfl
@[simp] theorem State.readStatus_params (s : State) : (s.readStatus).params = s.params := rfl
@[simp] theorem State.readStatus_spi_ctrl (s : State) :
    (s.readStatus).spi.ctrl = s.spi.ctrl := by
  unfold State.readStatus; split <;> rfl
@[simp] theorem State.readStatus_spi_status (s : State) :
    (s.readStatus).spi.status = s.spi.status := by
  unfold State.readStatus; split <;> rfl
@[simp] theorem State.readStatus_spi_cmdFifo (s : State) :
    (s.readStatus).spi.cmdFifo = s.spi.cmdFifo := by
  unfold State.readStatus; split <;> rfl
@[simp] theorem State.readStatus_spi_txFifo (s : State) :
    (s.readStatus).spi.txFifo = s.spi.txFifo := by
  unfold State.readStatus; split <;> rfl
@[simp] theorem State.readStatus_spi_rxWords (s : State) :
    (s.readStatus).spi.rxWords = s.spi.rxWords := by
  unfold State.readStatus; split <;> rfl
@[simp] theorem State.readStatus_spi_statusNext (s : State) :
    (s.readStatus).spi.statusNext = s.spi.statusNext.tail := by
  unfold State.readStatus; split <;> simp_all [State.emit]

@[simp] theorem State.readData_phase (s : State) : (s.readData).phase = s.phase := rfl
@[simp] theorem State.readData_fault (s : State) : (s.readData).fault = s.fault := rfl
@[simp] theorem State.readData_regs (s : State) : (s.readData).regs = s.regs := rfl
@[simp] theorem State.readData_tin (s : State) : (s.readData).tin = s.tin := rfl
@[simp] theorem State.readData_tout (s : State) : (s.readData).tout = s.tout := rfl
@[simp] theorem State.readData_ready (s : State) : (s.readData).ready = s.ready := rfl
@[simp] theorem State.readData_trace (s : State) : (s.readData).trace = s.trace ++ [.rdDataFifo s.nextData] := rfl
@[simp] theorem State.readData_params (s : State) : (s.readData).params = s.params := rfl
@[simp] theorem State.readData_spi_ctrl (s : State) :
    (s.readData).spi.ctrl = s.spi.ctrl := by
  unfold State.readData; split <;> rfl
@[simp] theorem State.readData_spi_status (s : State) :
    (s.readData).spi.status = s.spi.status := by
  unfold State.readData; split <;> rfl
@[simp] theorem State.readData_spi_cmdFifo (s : State) :
    (s.readData).spi.cmdFifo = s.spi.cmdFifo := by
  unfold State.readData; split <;> rfl
@[simp] theorem State.readData_spi_txFifo (s : State) :
    (s.readData).spi.txFifo = s.spi.txFifo := by
  unfold State.readData; split <;> rfl
@[simp] theorem State.readData_spi_statusNext (s : State) :
    (s.readData).spi.statusNext = s.spi.statusNext := by
  unfold State.readData; split <;> rfl
@[simp] theorem State.readData_spi_rxWords (s : State) :
    (s.readData).spi.rxWords = s.spi.rxWords.tail := by
  unfold State.readData; split <;> simp_all [State.emit]

@[simp] theorem State.resetEngine_phase (s : State) : (s.resetEngine).phase = .awaitOpcode := rfl
@[simp] theorem State.resetEngine_fault (s : State) : (s.resetEngine).fault = none := rfl
@[simp] theorem State.resetEngine_regs (s : State) : (s.resetEngine).regs = Regs.unwritten := rfl
@[simp] theorem State.resetEngine_tin (s : State) : (s.resetEngine).tin = s.tin := rfl
@[simp] theorem State.resetEngine_tout (s : State) : (s.resetEngine).tout = s.tout := rfl
@[simp] theorem State.resetEngine_ready (s : State) : (s.resetEngine).ready = s.ready := rfl
@[simp] theorem State.resetEngine_spi (s : State) : (s.resetEngine).spi = s.spi := rfl
@[simp] theorem State.resetEngine_trace (s : State) : (s.resetEngine).trace = [] := rfl
@[simp] theorem State.resetEngine_params (s : State) : (s.resetEngine).params = s.params := rfl

@[simp] theorem State.env_phase (s : State) (a : EnvAct) : (s.env a).phase = s.phase := by cases a <;> rfl
@[simp] theorem State.env_fault (s : State) (a : EnvAct) : (s.env a).fault = s.fault := by cases a <;> rfl
@[simp] theorem State.env_regs (s : State) (a : EnvAct) : (s.env a).regs = s.regs := by cases a <;> rfl
@[simp] theorem State.env_trace (s : State) (a : EnvAct) : (s.env a).trace = s.trace := by cases a <;> rfl
@[simp] theorem State.env_params (s : State) (a : EnvAct) : (s.env a).params = s.params := by cases a <;> rfl

/-- R44: an action of the environment adds to `tin` exactly what it sends. -/
@[simp] theorem State.env_tin (s : State) (a : EnvAct) : (s.env a).tin = s.tin ++ a.sent := by
  cases a <;> simp [State.env, EnvAct.sent]

end Sys2Proof.Machine
end

