-- ==== Sys2Proof/Laws/Ops.lean ====
section
/-! SUPPORT. One lemma per shared operation that says everything it can do, for the provers to cite instead of unfolding
it; and `step` by its phase. -/

namespace Sys2Proof.Machine

/-- R61: `Get` holds exactly while `tin` is empty. -/
theorem State.getByte_eq_none {s : State} : s.getByte = none ↔ s.tin = [] := by
  unfold State.getByte; split <;> simp_all

/-- R61: a `Get` that performs takes the head of `tin`, and does nothing else but be observed. -/
theorem State.getByte_eq_some {s t : State} {b : Byte} :
    s.getByte = some (b, t) ↔
      ∃ rest, s.tin = b :: rest ∧ t = { s with tin := rest, trace := s.trace ++ [.get b] } := by
  unfold State.getByte
  split
  · simp_all
  · next b' rest h =>
    constructor
    · intro e
      injection e with e
      injection e with e1 e2
      subst e1 e2
      exact ⟨rest, h, rfl⟩
    · rintro ⟨rest', h', rfl⟩
      rw [h] at h'
      injection h' with e1 e2
      subst e1 e2
      rfl

/-- R62: `Put` holds exactly while the transport does not accept. -/
theorem State.putByte_eq_none {s : State} {b : Byte} : s.putByte b = none ↔ s.ready = false := by
  unfold State.putByte; split <;> simp_all

/-- R62: a `Put` that performs appends to `tout`, and does nothing else but be observed. -/
theorem State.putByte_eq_some {s t : State} {b : Byte} :
    s.putByte b = some t ↔
      s.ready = true ∧ t = { s with tout := s.tout ++ [b], trace := s.trace ++ [.put b] } := by
  unfold State.putByte
  cases h : s.ready
  · simp
  · exact ⟨fun e => ⟨rfl, by injection e with e; exact e.symm⟩, fun e => by rw [e.2]; rfl⟩

/-- R63: a scripted status read uses up the master's first answer. -/
theorem State.readStatus_scripted {s : State} {v : Word} {vs : List Word} (h : s.spi.statusNext = v :: vs) :
    s.nextStatus = v ∧
      s.readStatus = { s with spi := { s.spi with statusNext := vs }, trace := s.trace ++ [.rdStatus v] } := by
  simp [State.nextStatus, State.readStatus, State.emit, h]

/-- R43: an unscripted status read returns a free value and counts it. -/
theorem State.readStatus_free {s : State} (h : s.spi.statusNext = []) :
    s.nextStatus = Config.freeStatus s.spi.drawn ∧
      s.readStatus =
        { s with
          spi := { s.spi with drawn := s.spi.drawn + 1 }
          trace := s.trace ++ [.rdStatus (Config.freeStatus s.spi.drawn)] } := by
  simp [State.nextStatus, State.readStatus, State.emit, h]

/-- R63, R70: a data read pops the oldest word the master holds. -/
theorem State.readData_scripted {s : State} {v : Word} {vs : List Word} (h : s.spi.rxWords = v :: vs) :
    s.nextData = v ∧
      s.readData = { s with spi := { s.spi with rxWords := vs }, trace := s.trace ++ [.rdDataFifo v] } := by
  simp [State.nextData, State.readData, State.emit, h]

/-- R178 (h): a data read of a master that holds no word returns a free value and counts it. -/
theorem State.readData_free {s : State} (h : s.spi.rxWords = []) :
    s.nextData = Config.freeData s.spi.drawn ∧
      s.readData =
        { s with
          spi := { s.spi with drawn := s.spi.drawn + 1 }
          trace := s.trace ++ [.rdDataFifo (Config.freeData s.spi.drawn)] } := by
  simp [State.nextData, State.readData, State.emit, h]

/-- Everything the reply serializer can do (R123, R33). -/
theorem stepReply_cases (s : State) :
    (s.regs.reply = some [] ∧ stepReply s = .fault .replyQueueEmpty) ∨
    (∃ b rest a, s.regs.reply = some (b :: rest) ∧ s.regs.after = some a ∧ s.ready = false ∧ stepReply s = .next s) ∨
    (∃ b rest a, s.regs.reply = some (b :: rest) ∧ s.regs.after = some a ∧ s.ready = true ∧
      stepReply s = .next { s with
        tout := s.tout ++ [b]
        trace := s.trace ++ [.put b]
        regs := { s.regs with reply := some rest }
        phase := if rest = [] then a.toPhase else .reply }) ∨
    ((s.regs.reply = none ∨ s.regs.after = none) ∧ stepReply s = .next (s.raise .unwrittenRead)) := by
  unfold stepReply
  split
  · next h => exact .inl ⟨h, rfl⟩
  · next b rest a hr ha =>
    split
    · next h => exact .inr (.inl ⟨b, rest, a, hr, ha, State.putByte_eq_none.mp h, rfl⟩)
    · next t h =>
      obtain ⟨hy, rfl⟩ := State.putByte_eq_some.mp h
      exact .inr (.inr (.inl ⟨b, rest, a, hr, ha, hy, rfl⟩))
  · next h1 h2 =>
    refine .inr (.inr (.inr ⟨?_, rfl⟩))
    match hr : s.regs.reply, ha : s.regs.after with
    | none, _ => exact .inl rfl
    | some _, none => exact .inr rfl
    | some [], some _ => exact absurd hr h1
    | some (b :: rest), some a => exact absurd ha (h2 b rest a hr)

/-- Every command's action queues a reply (R121, R122): nothing of the environment changes, and of the engine only the
phase, the reply registers and, for `O_SPIOP`, the registers of the operation. -/
theorem exec_next (i : Instr) (s : State) :
    ∃ regs, exec i s = .next { s with phase := .reply, regs := regs } := by
  cases i
  case sBustype a0 => simp only [exec, execSBustype]; split <;> exact ⟨_, rfl⟩
  all_goals exact ⟨_, rfl⟩

end Sys2Proof.Machine
end

