-- ==== Sys2Proof/Laws/PerInstr.lean ====
section
/-! SUPPORT. Facts about every command as syntax, one lemma per constructor. -/

namespace Sys2Proof.Laws

/-- R95, R99: a well-formed command is encoded in its opcode byte and as many argument bytes as its opcode asks for. -/
def EncodeLength.Statement (i : Instr) : Prop := i.wf = true → i.argBytes.length = fixedArgs i.opcode

/-- No byte of an `UNKNOWN` row takes arguments (R94): a row's mask and match exclude `0x12`, `0x13` and `0x15`. -/
theorem fixedArgs_of_mask {op m v : Byte} (h : (op &&& m == v) = true) (h2 : 0x12#8 &&& m ≠ v) (h3 : 0x13#8 &&& m ≠ v)
    (h5 : 0x15#8 &&& m ≠ v) : fixedArgs op = 0 := by
  have h : op &&& m = v := by simpa using h
  unfold fixedArgs
  split
  · next e => exact absurd (e ▸ h) h2
  · split
    · next e => exact absurd (e ▸ h) h3
    · split
      · next e => exact absurd (e ▸ h) h5
      · rfl

theorem EncodeLength.nop : EncodeLength.Statement .nop := fun _ => rfl

theorem EncodeLength.qIface : EncodeLength.Statement .qIface := fun _ => rfl

theorem EncodeLength.qCmdmap : EncodeLength.Statement .qCmdmap := fun _ => rfl

theorem EncodeLength.qPgmname : EncodeLength.Statement .qPgmname := fun _ => rfl

theorem EncodeLength.qSerbuf : EncodeLength.Statement .qSerbuf := fun _ => rfl

theorem EncodeLength.qBustype : EncodeLength.Statement .qBustype := fun _ => rfl

theorem EncodeLength.syncnop : EncodeLength.Statement .syncnop := fun _ => rfl

theorem EncodeLength.sBustype (a0 : Byte) : EncodeLength.Statement (.sBustype a0) := fun _ => rfl

theorem EncodeLength.oSpiop (cl rl : U24) : EncodeLength.Statement (.oSpiop cl rl) := fun _ => rfl

theorem EncodeLength.sPinState (a0 : Byte) : EncodeLength.Statement (.sPinState a0) := fun _ => rfl

theorem EncodeLength.unknown06 (op : Byte) : EncodeLength.Statement (.unknown06 op) := fun h =>
  (fixedArgs_of_mask h (by decide) (by decide) (by decide)).symm

theorem EncodeLength.unknown08 (op : Byte) : EncodeLength.Statement (.unknown08 op) := fun h =>
  (fixedArgs_of_mask h (by decide) (by decide) (by decide)).symm

theorem EncodeLength.unknown11 : EncodeLength.Statement .unknown11 := fun _ => rfl

theorem EncodeLength.unknown14 : EncodeLength.Statement .unknown14 := fun _ => rfl

theorem EncodeLength.unknown16 (op : Byte) : EncodeLength.Statement (.unknown16 op) := fun h =>
  (fixedArgs_of_mask h (by decide) (by decide) (by decide)).symm

theorem EncodeLength.unknown18 (op : Byte) : EncodeLength.Statement (.unknown18 op) := fun h =>
  (fixedArgs_of_mask h (by decide) (by decide) (by decide)).symm

theorem EncodeLength.unknown20 (op : Byte) : EncodeLength.Statement (.unknown20 op) := fun h =>
  (fixedArgs_of_mask h (by decide) (by decide) (by decide)).symm

theorem EncodeLength.unknown40 (op : Byte) : EncodeLength.Statement (.unknown40 op) := fun h =>
  (fixedArgs_of_mask h (by decide) (by decide) (by decide)).symm

theorem EncodeLength.unknown80 (op : Byte) : EncodeLength.Statement (.unknown80 op) := fun h =>
  (fixedArgs_of_mask h (by decide) (by decide) (by decide)).symm

end Sys2Proof.Laws
end

