-- ==== Sys2Proof/Laws/Step.lean ====
section
/-! SUPPORT. What each phase's step can do, said once: a case lemma for each fetching step and each phase of the transaction
engine, whose cases exclude nothing (holds, model faults and stops among them); what any step can do; and how a run unfolds. -/

namespace Sys2Proof.Machine

/-- A run of no step. -/
@[simp] theorem runFor_zero (s : State) : runFor 0 s = .next s := rfl

/-- A run begins with one step. -/
theorem runFor_succ (n : Nat) (s : State) :
    runFor (n + 1) s = match step s with
      | .next t => runFor n t
      | .fault f => .fault f
      | .refused r => .refused r := rfl

/-- A run is the host's run of this machine. -/
theorem runFor_eq_host_run (n : Nat) (s : State) : Host.Core.run Sys2Proof.core n s = runFor n s := by
  induction n generalizing s with
  | zero => rfl
  | succ n ih =>
    have h : Host.Core.run Sys2Proof.core (n + 1) s = match step s with
      | .next t => Host.Core.run Sys2Proof.core n t
      | .fault f => .fault f
      | .refused r => .refused r := by
      simp only [Host.Core.run, Sys2Proof.core]
      cases step s <;> rfl
    rw [h, runFor_succ]
    cases step s with
    | next t => exact ih t
    | fault f => rfl
    | refused r => rfl

/-- A run whose first step answers a next state goes on from there. -/
theorem runFor_next {s t : State} (n : Nat) (h : step s = .next t) : runFor (n + 1) s = runFor n t := by
  rw [runFor_succ, h]

/-- Two runs, one after the other. -/
theorem runFor_add {s t : State} (m n : Nat) (h : runFor m s = .next t) : runFor (m + n) s = runFor n t := by
  induction m generalizing s with
  | zero => cases h; rw [Nat.zero_add]
  | succ m ih =>
    rw [runFor_succ] at h
    rw [Nat.add_right_comm, runFor_succ]
    cases hs : step s <;> rw [hs] at h <;> first | exact ih h | cases h

/-- R120, R121: a step in `AWAIT_OPCODE` holds, or takes an opcode without arguments and acts, or takes one with arguments. -/
theorem fetchOpcode_cases (s : State) :
    (s.tin = [] ∧ runFetch (fetchOpcode s) = .next s) ∨
    ∃ op rest, s.tin = op :: rest ∧
      ((fixedArgs op = 0 ∧ ∃ i, decodeOpcode op = some i ∧
          runFetch (fetchOpcode s) = exec i { s with
            tin := rest
            trace := s.trace ++ [.get op]
            regs := { Regs.unwritten with op := some op } }) ∨
        (fixedArgs op ≠ 0 ∧ runFetch (fetchOpcode s) = .next { s with
          tin := rest
          trace := s.trace ++ [.get op]
          regs := { Regs.unwritten with op := some op, args := some [], argc := some (fixedArgs op) }
          phase := .arg })) := by
  cases h : s.getByte with
  | none => exact .inl ⟨State.getByte_eq_none.mp h, by simp [fetchOpcode, h, runFetch]⟩
  | some p =>
    obtain ⟨op, t⟩ := p
    obtain ⟨rest, ht, rfl⟩ := State.getByte_eq_some.mp h
    refine .inr ⟨op, rest, ht, ?_⟩
    by_cases h0 : fixedArgs op = 0
    · obtain ⟨i, hi, hd⟩ := decode_f0 h0 []
      exact .inl ⟨h0, i, hi, by simp [fetchOpcode, h, h0, hd, runFetch]⟩
    · exact .inr ⟨h0, by simp [fetchOpcode, h, h0, runFetch]⟩

/-- R122: a step in `ARG` holds, or takes an argument with more to come, or takes the last one and acts; or it stops, or
raises `UnwrittenRead`, in states no run reaches. -/
theorem fetchArg_cases (s : State) :
    (s.tin = [] ∧ runFetch (fetchArg s) = .next s) ∨
    ∃ a rest, s.tin = a :: rest ∧
      ((∃ op args m, s.regs.op = some op ∧ s.regs.args = some args ∧ s.regs.argc = some (m + 1) ∧
          ((m ≠ 0 ∧ runFetch (fetchArg s) = .next { s with
              tin := rest
              trace := s.trace ++ [.get a]
              regs := { s.regs with args := some (args ++ [a]), argc := some m } }) ∨
            (m = 0 ∧ ∃ i, decode (op :: (args ++ [a])) = .ok (i, []) ∧ runFetch (fetchArg s) = exec i { s with
              tin := rest
              trace := s.trace ++ [.get a]
              regs := { s.regs with args := some (args ++ [a]), argc := some 0 } }) ∨
            (m = 0 ∧ (∀ i, decode (op :: (args ++ [a])) ≠ .ok (i, [])) ∧
              runFetch (fetchArg s) = .fault .noAfterArguments))) ∨
        (s.regs.argc = some 0 ∧ runFetch (fetchArg s) = .fault .noArgumentDue) ∨
        ((s.regs.op = none ∨ s.regs.args = none ∨ s.regs.argc = none) ∧
          runFetch (fetchArg s) = .next (s.raise .unwrittenRead))) := by
  cases h : s.getByte with
  | none => exact .inl ⟨State.getByte_eq_none.mp h, by simp [fetchArg, h, runFetch]⟩
  | some p =>
    obtain ⟨a, t⟩ := p
    obtain ⟨rest, ht, rfl⟩ := State.getByte_eq_some.mp h
    refine .inr ⟨a, rest, ht, ?_⟩
    cases ho : s.regs.op with
    | none => exact .inr (.inr ⟨.inl rfl, by simp [fetchArg, h, ho, runFetch]⟩)
    | some op =>
    cases ha : s.regs.args with
    | none => exact .inr (.inr ⟨.inr (.inl rfl), by simp [fetchArg, h, ho, ha, runFetch]⟩)
    | some args =>
    cases hc : s.regs.argc with
    | none => exact .inr (.inr ⟨.inr (.inr rfl), by simp [fetchArg, h, ho, ha, hc, runFetch]⟩)
    | some m =>
    cases m with
    | zero => exact .inr (.inl ⟨rfl, by simp [fetchArg, h, ho, ha, hc, runFetch]⟩)
    | succ m =>
      refine .inl ⟨op, args, m, rfl, rfl, rfl, ?_⟩
      by_cases h0 : m = 0
      · subst h0
        by_cases hd : ∃ i, decode (op :: (args ++ [a])) = .ok (i, [])
        · obtain ⟨i, hd⟩ := hd
          exact .inr (.inl ⟨rfl, i, hd, by simp [fetchArg, h, ho, ha, hc, hd, runFetch]⟩)
        · refine .inr (.inr ⟨rfl, fun i hi => hd ⟨i, hi⟩, ?_⟩)
          have hd' : ∀ i, decode (op :: (args ++ [a])) ≠ .ok (i, []) := fun i hi => hd ⟨i, hi⟩
          have hs : fetchArg s = .stop .noAfterArguments := by simp only [fetchArg, h, ho, ha, hc, if_true]
          rw [hs, runFetch]
      · exact .inl ⟨h0, by simp [fetchArg, h, ho, ha, hc, h0, runFetch]⟩

/-- R165, R181: `SPI_CTRL` programs the controller, or faults. -/
theorem stepSpiCtrl_cases (s : State) :
    (∃ mode len cl, s.regs.mode = some mode ∧ s.regs.len = some len ∧ s.regs.cl = some cl ∧
      ((ctrlOverflows s.params len cl = true ∧ stepSpiCtrl s = s.raise .ctrlFieldOverflow) ∨
        (ctrlOverflows s.params len cl = false ∧ stepSpiCtrl s = { s with
          spi := { s.spi with ctrl := ⟨mode.field, len, cl⟩ }
          trace := s.trace ++ [.wrCtrl mode.field len cl]
          regs := { s.regs with cmdRem := some cl, rem := some len }
          phase := if cl = 0#24 then burstPhase mode len else .cmdGet }))) ∨
    ((s.regs.mode = none ∨ s.regs.len = none ∨ s.regs.cl = none) ∧ stepSpiCtrl s = s.raise .unwrittenRead) := by
  cases hm : s.regs.mode with
  | none => exact .inr ⟨.inl rfl, by simp [stepSpiCtrl, hm]⟩
  | some mode =>
  cases hl : s.regs.len with
  | none => exact .inr ⟨.inr (.inl rfl), by simp [stepSpiCtrl, hl]⟩
  | some len =>
  cases hc : s.regs.cl with
  | none => exact .inr ⟨.inr (.inr rfl), by simp [stepSpiCtrl, hc]⟩
  | some cl =>
    refine .inl ⟨mode, len, cl, rfl, rfl, rfl, ?_⟩
    cases ho : ctrlOverflows s.params len cl
    · exact .inr ⟨rfl, by simp [stepSpiCtrl, hm, hl, hc, ho, State.writeCtrl, State.emit]⟩
    · exact .inl ⟨rfl, by simp [stepSpiCtrl, hm, hl, hc, ho]⟩

/-- R166: `CMD_GET` holds or takes a command byte. -/
theorem stepCmdGet_cases (s : State) :
    (s.tin = [] ∧ stepCmdGet s = s) ∨
    ∃ b rest, s.tin = b :: rest ∧ stepCmdGet s = { s with
      tin := rest
      trace := s.trace ++ [.get b]
      regs := { s.regs with cbyte := some b }
      phase := .cmdPut } := by
  cases h : s.getByte with
  | none => exact .inl ⟨State.getByte_eq_none.mp h, by simp [stepCmdGet, h]⟩
  | some p =>
    obtain ⟨b, t⟩ := p
    obtain ⟨rest, ht, rfl⟩ := State.getByte_eq_some.mp h
    exact .inr ⟨b, rest, ht, by simp [stepCmdGet, h]⟩

/-- R166, R180: `CMD_PUT` pushes the command byte, or faults. -/
theorem stepCmdPut_cases (s : State) :
    (∃ b c cl mode rem, s.regs.cbyte = some b ∧ s.regs.cmdRem = some c ∧ s.regs.cl = some cl ∧
      s.regs.mode = some mode ∧ s.regs.rem = some rem ∧
      ((cmdFifoFull s.params cl c = true ∧ stepCmdPut s = s.raise .cmdFifoOverrun) ∨
        (cmdFifoFull s.params cl c = false ∧ stepCmdPut s = { s with
          spi := { s.spi with cmdFifo := s.spi.cmdFifo ++ [b] }
          trace := s.trace ++ [.wrCmdFifo b]
          regs := { s.regs with cmdRem := some (c - 1#24) }
          phase := if c - 1#24 = 0#24 then burstPhase mode rem else .cmdGet }))) ∨
    ((s.regs.cbyte = none ∨ s.regs.cmdRem = none ∨ s.regs.cl = none ∨ s.regs.mode = none ∨ s.regs.rem = none) ∧
      stepCmdPut s = s.raise .unwrittenRead) := by
  cases hb : s.regs.cbyte with
  | none => exact .inr ⟨.inl rfl, by simp [stepCmdPut, hb]⟩
  | some b =>
  cases hc : s.regs.cmdRem with
  | none => exact .inr ⟨.inr (.inl rfl), by simp [stepCmdPut, hc]⟩
  | some c =>
  cases hl : s.regs.cl with
  | none => exact .inr ⟨.inr (.inr (.inl rfl)), by simp [stepCmdPut, hl]⟩
  | some cl =>
  cases hm : s.regs.mode with
  | none => exact .inr ⟨.inr (.inr (.inr (.inl rfl))), by simp [stepCmdPut, hm]⟩
  | some mode =>
  cases hr : s.regs.rem with
  | none => exact .inr ⟨.inr (.inr (.inr (.inr rfl))), by simp [stepCmdPut, hr]⟩
  | some rem =>
    refine .inl ⟨b, c, cl, mode, rem, rfl, rfl, rfl, rfl, rfl, ?_⟩
    cases ho : cmdFifoFull s.params cl c
    · exact .inr ⟨rfl, by simp [stepCmdPut, hb, hc, hl, hm, hr, ho, State.writeCmdFifo, State.emit]⟩
    · exact .inl ⟨rfl, by simp [stepCmdPut, hb, hc, hl, hm, hr, ho]⟩

/-- R167: `TX_POLL` reads the status and, on capacity, starts a word. -/
theorem stepTxPoll_cases (s : State) :
    (∃ rem, s.regs.rem = some rem ∧
      ((s.params.hasCapacity s.nextStatus = true ∧ stepTxPoll s = { s.readStatus with
          regs := { s.regs with n := some (chunk rem), j := some 0, word := some 0#32 }
          phase := .txFill }) ∨
        (s.params.hasCapacity s.nextStatus = false ∧ stepTxPoll s = s.readStatus))) ∨
    (s.regs.rem = none ∧ stepTxPoll s = s.raise .unwrittenRead) := by
  cases hr : s.regs.rem with
  | none => exact .inr ⟨rfl, by simp [stepTxPoll, hr]⟩
  | some rem =>
    refine .inl ⟨rem, rfl, ?_⟩
    cases h : s.params.hasCapacity s.nextStatus
    · exact .inr ⟨rfl, by simp [stepTxPoll, hr, h]⟩
    · exact .inl ⟨rfl, by simp [stepTxPoll, hr, h]⟩

/-- R168: `TX_FILL` holds, or packs one byte. -/
theorem stepTxFill_cases (s : State) :
    (s.tin = [] ∧ stepTxFill s = s) ∨
    ∃ b rest, s.tin = b :: rest ∧
      ((∃ w j n, s.regs.word = some w ∧ s.regs.j = some j ∧ s.regs.n = some n ∧ stepTxFill s = { s with
          tin := rest
          trace := s.trace ++ [.get b]
          regs := { s.regs with word := some (orLane w j b), j := some (j + 1) }
          phase := if j + 1 = n then .txPush else .txFill }) ∨
        ((s.regs.word = none ∨ s.regs.j = none ∨ s.regs.n = none) ∧ stepTxFill s = s.raise .unwrittenRead)) := by
  cases h : s.getByte with
  | none => exact .inl ⟨State.getByte_eq_none.mp h, by simp [stepTxFill, h]⟩
  | some p =>
    obtain ⟨b, t⟩ := p
    obtain ⟨rest, ht, rfl⟩ := State.getByte_eq_some.mp h
    refine .inr ⟨b, rest, ht, ?_⟩
    cases hw : s.regs.word with
    | none => exact .inr ⟨.inl rfl, by simp [stepTxFill, h, hw]⟩
    | some w =>
    cases hj : s.regs.j with
    | none => exact .inr ⟨.inr (.inl rfl), by simp [stepTxFill, h, hj]⟩
    | some j =>
    cases hn : s.regs.n with
    | none => exact .inr ⟨.inr (.inr rfl), by simp [stepTxFill, h, hn]⟩
    | some n => exact .inl ⟨w, j, n, rfl, rfl, rfl, by simp [stepTxFill, h, hw, hj, hn]⟩

/-- R169: `TX_PUSH` pushes the word and counts it off. -/
theorem stepTxPush_cases (s : State) :
    (∃ w rem n, s.regs.word = some w ∧ s.regs.rem = some rem ∧ s.regs.n = some n ∧ stepTxPush s = { s with
      spi := { s.spi with txFifo := s.spi.txFifo ++ [w] }
      trace := s.trace ++ [.wrDataFifo w]
      regs := { s.regs with rem := some (remAfter rem n) }
      phase := if remAfter rem n = 0#24 then .busyPoll else .txPoll }) ∨
    ((s.regs.word = none ∨ s.regs.rem = none ∨ s.regs.n = none) ∧ stepTxPush s = s.raise .unwrittenRead) := by
  cases hw : s.regs.word with
  | none => exact .inr ⟨.inl rfl, by simp [stepTxPush, hw]⟩
  | some w =>
  cases hr : s.regs.rem with
  | none => exact .inr ⟨.inr (.inl rfl), by simp [stepTxPush, hr]⟩
  | some rem =>
  cases hn : s.regs.n with
  | none => exact .inr ⟨.inr (.inr rfl), by simp [stepTxPush, hn]⟩
  | some n => exact .inl ⟨w, rem, n, rfl, rfl, rfl, by simp [stepTxPush, hw, hr, hn, State.writeDataFifo, State.emit]⟩

/-- R170: `RX_POLL` reads the status and, on data, goes to pop a word. -/
theorem stepRxPoll_cases (s : State) :
    (s.params.hasData s.nextStatus = true ∧ stepRxPoll s = { s.readStatus with phase := .rxPop }) ∨
    (s.params.hasData s.nextStatus = false ∧ stepRxPoll s = s.readStatus) := by
  cases h : s.params.hasData s.nextStatus
  · exact .inr ⟨rfl, by simp [stepRxPoll, h]⟩
  · exact .inl ⟨rfl, by simp [stepRxPoll, h, State.setPhase]⟩

/-- R171: `RX_POP` pops one word. -/
theorem stepRxPop_cases (s : State) :
    (∃ rem, s.regs.rem = some rem ∧ stepRxPop s = { s.readData with
      regs := { s.regs with word := some s.nextData, n := some (chunk rem), j := some 0 }
      phase := .rxEmit }) ∨
    (s.regs.rem = none ∧ stepRxPop s = s.raise .unwrittenRead) := by
  cases hr : s.regs.rem with
  | none => exact .inr ⟨rfl, by simp [stepRxPop, hr]⟩
  | some rem => exact .inl ⟨rem, rfl, by simp [stepRxPop, hr]⟩

/-- R172: `RX_EMIT` holds, or puts one lane and, after the last significant one, counts the word off. -/
theorem stepRxEmit_cases (s : State) :
    (∃ w j n rem, s.regs.word = some w ∧ s.regs.j = some j ∧ s.regs.n = some n ∧ s.regs.rem = some rem ∧
      ((s.ready = false ∧ stepRxEmit s = s) ∨
        (s.ready = true ∧ j + 1 = n ∧ stepRxEmit s = { s with
          tout := s.tout ++ [lane w j]
          trace := s.trace ++ [.put (lane w j)]
          regs := { s.regs with j := some (j + 1), rem := some (remAfter rem n) }
          phase := if remAfter rem n = 0#24 then .busyPoll else .rxPoll }) ∨
        (s.ready = true ∧ j + 1 ≠ n ∧ stepRxEmit s = { s with
          tout := s.tout ++ [lane w j]
          trace := s.trace ++ [.put (lane w j)]
          regs := { s.regs with j := some (j + 1) } }))) ∨
    ((s.regs.word = none ∨ s.regs.j = none ∨ s.regs.n = none ∨ s.regs.rem = none) ∧
      stepRxEmit s = s.raise .unwrittenRead) := by
  cases hw : s.regs.word with
  | none => exact .inr ⟨.inl rfl, by simp [stepRxEmit, hw]⟩
  | some w =>
  cases hj : s.regs.j with
  | none => exact .inr ⟨.inr (.inl rfl), by simp [stepRxEmit, hj]⟩
  | some j =>
  cases hn : s.regs.n with
  | none => exact .inr ⟨.inr (.inr (.inl rfl)), by simp [stepRxEmit, hn]⟩
  | some n =>
  cases hr : s.regs.rem with
  | none => exact .inr ⟨.inr (.inr (.inr rfl)), by simp [stepRxEmit, hr]⟩
  | some rem =>
    refine .inl ⟨w, j, n, rem, rfl, rfl, rfl, rfl, ?_⟩
    cases hy : s.ready with
    | false =>
      exact .inl ⟨rfl, by simp [stepRxEmit, hw, hj, hn, hr, State.putByte_eq_none.mpr hy]⟩
    | true =>
      have hp := (State.putByte_eq_some (b := lane w j)).mpr ⟨hy, rfl⟩
      by_cases he : j + 1 = n
      · exact .inr (.inl ⟨rfl, he, by simp [stepRxEmit, hw, hj, hn, hr, hy, hp, he]⟩)
      · exact .inr (.inr ⟨rfl, he, by simp [stepRxEmit, hw, hj, hn, hr, hy, hp, he]⟩)

/-- R173: `BUSY_POLL` reads the status and ends the command when it shows `busy = false`. -/
theorem stepBusyPoll_cases (s : State) :
    (s.params.isBusy s.nextStatus = true ∧ stepBusyPoll s = s.readStatus) ∨
    (s.params.isBusy s.nextStatus = false ∧ stepBusyPoll s = { s.readStatus with phase := .awaitOpcode }) := by
  cases h : s.params.isBusy s.nextStatus
  · exact .inr ⟨rfl, by simp [stepBusyPoll, h, State.setPhase]⟩
  · exact .inl ⟨rfl, by simp [stepBusyPoll, h]⟩

/-- Everything a step that answers a next state can do to the state, in all phases: it holds, raises a fault, or performs one
event with what that event does to the environment, and sets some registers and a successor phase. -/
inductive StepEffect (s : State) : State → Prop
  | hold : StepEffect s s
  | fault (f : FaultName)
      (why : f = .ctrlFieldOverflow ∧ s.phase = .spiCtrl ∨ f = .cmdFifoOverrun ∧ s.phase = .cmdPut ∨ f = .unwrittenRead) :
      StepEffect s (s.raise f)
  | get (b : Byte) (rest : List Byte) (regs : Regs) (p : Phase) (hin : s.tin = b :: rest)
      (here : s.phase ∈ [Phase.awaitOpcode, .arg, .cmdGet, .txFill]) (next : p ∈ s.phase.successors) :
      StepEffect s { s with tin := rest, trace := s.trace ++ [.get b], regs := regs, phase := p }
  | put (b : Byte) (regs : Regs) (p : Phase) (accepts : s.ready = true) (here : s.phase ∈ [Phase.reply, .rxEmit])
      (next : p ∈ s.phase.successors) :
      StepEffect s { s with tout := s.tout ++ [b], trace := s.trace ++ [.put b], regs := regs, phase := p }
  | writeCtrl (m : Mode) (burstLen cmdLen : U24) (regs : Regs) (p : Phase) (here : s.phase = .spiCtrl)
      (next : p ∈ s.phase.successors) :
      StepEffect s { s.writeCtrl m.field burstLen cmdLen with regs := regs, phase := p }
  | writeCmdFifo (b : Byte) (regs : Regs) (p : Phase) (here : s.phase = .cmdPut) (next : p ∈ s.phase.successors) :
      StepEffect s { s.writeCmdFifo b with regs := regs, phase := p }
  | writeDataFifo (w : Word) (regs : Regs) (p : Phase) (here : s.phase = .txPush) (next : p ∈ s.phase.successors) :
      StepEffect s { s.writeDataFifo w with regs := regs, phase := p }
  | readStatus (regs : Regs) (p : Phase) (here : s.phase ∈ [Phase.txPoll, .rxPoll, .busyPoll])
      (next : p ∈ s.phase.successors) (capacity : p = .txFill → s.params.hasCapacity s.nextStatus = true)
      (data : p = .rxPop → s.params.hasData s.nextStatus = true)
      (idle : p = .awaitOpcode → s.params.isBusy s.nextStatus = false) :
      StepEffect s { s.readStatus with regs := regs, phase := p }
  | readData (regs : Regs) (p : Phase) (here : s.phase = .rxPop) (next : p ∈ s.phase.successors) :
      StepEffect s { s.readData with regs := regs, phase := p }

/-- R165, R166: the phase a burst starts in follows both the control write and the last command byte. -/
theorem burstPhase_mem_successors (mode : Mode) (rem : U24) {p : Phase} (hp : p = .spiCtrl ∨ p = .cmdPut) :
    burstPhase mode rem ∈ p.successors := by
  unfold burstPhase
  rcases hp with rfl | rfl <;> cases mode <;> simp only [Phase.successors] <;> (try split) <;> decide

/-- What a step can do, whatever its phase. -/
theorem step_effect {s t : State} (h : step s = .next t) : StepEffect s t := by
  have acts {i : Instr} {u : State} (hx : exec i u = .next t) : ∃ regs, t = { u with phase := .reply, regs := regs } := by
    obtain ⟨r, hr⟩ := exec_next i u
    rw [hr] at hx
    cases hx
    exact ⟨r, rfl⟩
  unfold step at h
  split at h <;> rename_i hp
  · rcases fetchOpcode_cases s with ⟨_, h'⟩ | ⟨op, rest, ht, ⟨_, i, hi, h'⟩ | ⟨_, h'⟩⟩ <;> rw [h'] at h
    · cases h; exact .hold
    · obtain ⟨r, rfl⟩ := acts h
      exact .get op rest r .reply ht (by simp [hp]) (by simp [hp, Phase.successors])
    · cases h; exact .get op rest _ .arg ht (by simp [hp]) (by simp [hp, Phase.successors])
  · rcases fetchArg_cases s with ⟨_, h'⟩ | ⟨a, rest, ht, ⟨op, args, m, ho, ha, hc, ⟨hm, h'⟩ | ⟨hm, i, hd, h'⟩ | ⟨_, _, h'⟩⟩ |
      ⟨_, h'⟩ | ⟨_, h'⟩⟩ <;> rw [h'] at h
    · cases h; exact .hold
    · cases h; exact .get a rest _ s.phase ht (by simp [hp]) (by simp [hp, Phase.successors])
    · obtain ⟨r, rfl⟩ := acts h
      exact .get a rest r .reply ht (by simp [hp]) (by simp [hp, Phase.successors])
    · cases h
    · cases h
    · cases h; exact .fault _ (.inr (.inr rfl))
  · rcases stepReply_cases s with ⟨_, h'⟩ | ⟨b, rest, a, hr, ha, _, h'⟩ | ⟨b, rest, a, hr, ha, hy, h'⟩ | ⟨_, h'⟩ <;>
      rw [h'] at h <;> cases h
    · exact .hold
    · refine .put b _ _ hy (by simp [hp]) ?_
      simp only [hp, Phase.successors]
      split <;> cases a <;> simp [After.toPhase]
    · exact .fault _ (.inr (.inr rfl))
  · cases h
    rcases stepSpiCtrl_cases s with ⟨m, l, c, _, _, _, ⟨_, h'⟩ | ⟨_, h'⟩⟩ | ⟨_, h'⟩ <;> rw [h']
    · exact .fault _ (.inl ⟨rfl, hp⟩)
    · refine .writeCtrl m l c _ _ hp ?_
      split
      · exact burstPhase_mem_successors m l (.inl hp)
      · simp [hp, Phase.successors]
    · exact .fault _ (.inr (.inr rfl))
  · cases h
    rcases stepCmdGet_cases s with ⟨_, h'⟩ | ⟨b, rest, ht, h'⟩ <;> rw [h']
    · exact .hold
    · exact .get b rest _ _ ht (by simp [hp]) (by simp [hp, Phase.successors])
  · cases h
    rcases stepCmdPut_cases s with ⟨b, c, cl, mode, rem, _, _, _, _, _, ⟨_, h'⟩ | ⟨_, h'⟩⟩ | ⟨_, h'⟩ <;> rw [h']
    · exact .fault _ (.inr (.inl ⟨rfl, hp⟩))
    · refine .writeCmdFifo b _ _ hp ?_
      split
      · exact burstPhase_mem_successors mode rem (.inr hp)
      · simp [hp, Phase.successors]
    · exact .fault _ (.inr (.inr rfl))
  · cases h
    rcases stepTxPoll_cases s with ⟨rem, _, ⟨hc, h'⟩ | ⟨hc, h'⟩⟩ | ⟨_, h'⟩ <;> rw [h']
    · exact .readStatus _ _ (by simp [hp]) (by simp [hp, Phase.successors]) (fun _ => hc) (by simp) (by simp)
    · exact .readStatus s.regs s.phase (by simp [hp]) (by simp [hp, Phase.successors]) (by simp [hp]) (by simp [hp])
        (by simp [hp])
    · exact .fault _ (.inr (.inr rfl))
  · cases h
    rcases stepTxFill_cases s with ⟨_, h'⟩ | ⟨b, rest, ht, ⟨_, _, _, _, _, _, h'⟩ | ⟨_, h'⟩⟩ <;> rw [h']
    · exact .hold
    · refine .get b rest _ _ ht (by simp [hp]) ?_
      simp only [hp, Phase.successors]
      split <;> simp
    · exact .fault _ (.inr (.inr rfl))
  · cases h
    rcases stepTxPush_cases s with ⟨w, _, _, _, _, _, h'⟩ | ⟨_, h'⟩ <;> rw [h']
    · refine .writeDataFifo w _ _ hp ?_
      simp only [hp, Phase.successors]
      split <;> simp
    · exact .fault _ (.inr (.inr rfl))
  · cases h
    rcases stepRxPoll_cases s with ⟨hc, h'⟩ | ⟨hc, h'⟩ <;> rw [h']
    · exact .readStatus s.regs _ (by simp [hp]) (by simp [hp, Phase.successors]) (by simp) (fun _ => hc) (by simp)
    · exact .readStatus s.regs s.phase (by simp [hp]) (by simp [hp, Phase.successors]) (by simp [hp]) (by simp [hp])
        (by simp [hp])
  · cases h
    rcases stepRxPop_cases s with ⟨_, _, h'⟩ | ⟨_, h'⟩ <;> rw [h']
    · exact .readData _ _ hp (by simp [hp, Phase.successors])
    · exact .fault _ (.inr (.inr rfl))
  · cases h
    rcases stepRxEmit_cases s with ⟨w, j, n, rem, _, _, _, _, ⟨_, h'⟩ | ⟨hy, _, h'⟩ | ⟨hy, _, h'⟩⟩ | ⟨_, h'⟩ <;> rw [h']
    · exact .hold
    · refine .put _ _ _ hy (by simp [hp]) ?_
      simp only [hp, Phase.successors]
      split <;> simp
    · exact .put _ _ s.phase hy (by simp [hp]) (by simp [hp, Phase.successors])
    · exact .fault _ (.inr (.inr rfl))
  · cases h
    rcases stepBusyPoll_cases s with ⟨hc, h'⟩ | ⟨hc, h'⟩ <;> rw [h']
    · exact .readStatus s.regs s.phase (by simp [hp]) (by simp [hp, Phase.successors]) (by simp [hp]) (by simp [hp])
        (by simp [hp])
    · exact .readStatus s.regs _ (by simp [hp]) (by simp [hp, Phase.successors]) (by simp) (by simp) (fun _ => hc)
  · cases h; exact .hold

/-- R35: no step changes the parameters. -/
theorem step_params {s t : State} (h : step s = .next t) : t.params = s.params := by
  cases step_effect h <;> rfl

/-- R20, R62: whether the transport accepts is not the engine's to change. -/
theorem step_ready {s t : State} (h : step s = .next t) : t.ready = s.ready := by
  cases step_effect h <;> rfl

end Sys2Proof.Machine
end

