-- ==== Sys2Proof/Laws/Run.lean ====
section
/-! SUPPORT. Runs of the engine among its environment's actions (spec/00_scope.md R6, spec/70_reset_and_hazards.md R284): how
the states at successive engine steps follow from one another, what actions of the environment leave alone, and how a wait that
the environment ends comes to its end. -/

namespace Sys2Proof.Machine

/-- Two runs, one after the other. -/
theorem runTurns_append {as bs : List Turn} {s t : State} (h : runTurns as s = .next t) :
    runTurns (as ++ bs) s = runTurns bs t := by
  induction as generalizing s with
  | nil => cases h; rfl
  | cons a as ih =>
    cases a with
    | env a => exact ih h
    | engine =>
      simp only [runTurns, List.cons_append] at h ⊢
      cases hs : step s with
      | next u => rw [hs] at h; exact ih h
      | fault f => rw [hs] at h; cases h
      | refused r => rw [hs] at h; cases h

/-- Actions of the environment never stop, and come one after the other. -/
theorem runTurns_env (as : List EnvAct) (s : State) : runTurns (as.map .env) s = .next (as.foldl State.env s) := by
  induction as generalizing s with
  | nil => rfl
  | cons a as ih => exact ih (s.env a)

/-- R20: the environment's actions leave the engine state, the trace and the parameters alone. -/
theorem foldl_env_keeps (as : List EnvAct) (s : State) :
    (as.foldl State.env s).phase = s.phase ∧ (as.foldl State.env s).regs = s.regs ∧
      (as.foldl State.env s).params = s.params ∧ (as.foldl State.env s).trace = s.trace := by
  induction as generalizing s with
  | nil => exact ⟨rfl, rfl, rfl, rfl⟩
  | cons a as ih => simpa using ih (s.env a)

/-- R44: the environment's actions add to `tin` exactly what they send. -/
theorem foldl_env_tin (as : List EnvAct) (s : State) :
    (as.foldl State.env s).tin = s.tin ++ as.flatMap EnvAct.sent := by
  induction as generalizing s with
  | nil => simp
  | cons a as ih => simp [ih (s.env a)]

/-- The state at the engine's first step. -/
theorem Schedule.reaches_zero (e : Schedule) (s : State) : e.reaches s 0 ((e 0).foldl State.env s) := runTurns_env _ _

/-- The state at the engine's next step. -/
theorem Schedule.reaches_succ {e : Schedule} {s t u : State} {k : Nat} (h : e.reaches s k t) (hs : step t = .next u) :
    e.reaches s (k + 1) ((e (k + 1)).foldl State.env u) := by
  unfold Schedule.reaches at *
  rw [Schedule.turns, runTurns_append h, runTurns, hs]
  exact runTurns_env _ _

/-- A run is at one state at each step. -/
theorem Schedule.reaches_unique {e : Schedule} {s t u : State} {k : Nat} (h : e.reaches s k t) (h' : e.reaches s k u) :
    t = u := by
  unfold Schedule.reaches at *
  rw [h] at h'
  cases h'
  rfl

/-- A run that gets to a step has got to every step before it. -/
theorem Schedule.reaches_pred {e : Schedule} {s u : State} {k : Nat} (h : e.reaches s (k + 1) u) :
    ∃ t v, e.reaches s k t ∧ step t = .next v ∧ u = (e (k + 1)).foldl State.env v := by
  have split : ∀ (as : List Turn) (bs : List EnvAct) (s u : State), runTurns (as ++ .engine :: bs.map .env) s = .next u →
      ∃ t v, runTurns as s = .next t ∧ step t = .next v ∧ u = bs.foldl State.env v := by
    intro as
    induction as with
    | nil =>
      intro bs s u h
      simp only [List.nil_append, runTurns] at h
      cases hs : step s with
      | next v =>
        rw [hs] at h
        simp only [runTurns_env] at h
        cases h
        exact ⟨s, v, rfl, hs, rfl⟩
      | fault f => rw [hs] at h; cases h
      | refused r => rw [hs] at h; cases h
    | cons a as ih =>
      intro bs s u h
      cases a with
      | env a => exact ih bs _ _ h
      | engine =>
        simp only [List.cons_append, runTurns] at h ⊢
        cases hs : step s with
        | next v => rw [hs] at h; exact ih bs _ _ h
        | fault f => rw [hs] at h; cases h
        | refused r => rw [hs] at h; cases h
  exact split _ _ _ _ h

/-- Induction along a run: what holds at its first step, and is kept by a step and the actions after it, holds throughout. -/
theorem Schedule.reaches_induction {e : Schedule} {s : State} (P : Nat → State → Prop)
    (h0 : P 0 ((e 0).foldl State.env s))
    (hs : ∀ k t u, P k t → step t = .next u → P (k + 1) ((e (k + 1)).foldl State.env u)) :
    ∀ k t, e.reaches s k t → P k t := by
  intro k
  induction k with
  | zero => intro t h; rw [← Schedule.reaches_unique (Schedule.reaches_zero e s) h]; exact h0
  | succ k ih =>
    intro t h
    obtain ⟨u, v, hu, hv, rfl⟩ := Schedule.reaches_pred h
    exact hs k u v (ih u hu) hv

/-- A wait comes to its end: if the engine stays in states with `I` while `q` fails, and is at a state with `q` some steps
on, then it is at a state with both. -/
theorem Schedule.wait_ends {e : Schedule} {s : State} (I q : State → Prop)
    (stays : ∀ t, I t → ¬ q t → ∃ u, step t = .next u ∧ ∀ as : List EnvAct, I (as.foldl State.env u)) (n : Nat) :
    ∀ k t, e.reaches s k t → I t → (∃ u, e.reaches s (k + n) u ∧ q u) → ∃ j u, e.reaches s j u ∧ I u ∧ q u := by
  induction n with
  | zero =>
    rintro k t h hi ⟨u, hu, hq⟩
    exact ⟨k, u, hu, Schedule.reaches_unique h hu ▸ hi, hq⟩
  | succ n ih =>
    rintro k t h hi ⟨u, hu, hq⟩
    by_cases ht : q t
    · exact ⟨k, t, h, hi, ht⟩
    · obtain ⟨v, hv, hI⟩ := stays t hi ht
      exact ih (k + 1) _ (Schedule.reaches_succ h hv) (hI _) ⟨u, by rwa [Nat.add_right_comm, Nat.add_assoc], hq⟩

/-- Two states whose engine, parameters and bytes taken and given are the same. They may differ in the environment, and in
status reads made on the way from one to the other. -/
def State.SameEngine (t u : State) : Prop :=
  u.phase = t.phase ∧ u.regs = t.regs ∧ u.params = t.params ∧ takenBytes u.trace = takenBytes t.trace ∧
    givenBytes u.trace = givenBytes t.trace

theorem State.SameEngine.refl (t : State) : t.SameEngine t := ⟨rfl, rfl, rfl, rfl, rfl⟩

theorem State.SameEngine.trans {t u v : State} (h : t.SameEngine u) (h' : u.SameEngine v) : t.SameEngine v :=
  ⟨h'.1.trans h.1, h'.2.1.trans h.2.1, h'.2.2.1.trans h.2.2.1, h'.2.2.2.1.trans h.2.2.2.1, h'.2.2.2.2.trans h.2.2.2.2⟩

/-- R20: the environment's actions leave the engine the same. -/
theorem State.SameEngine.env (t : State) (as : List EnvAct) : t.SameEngine (as.foldl State.env t) := by
  obtain ⟨hp, hr, hq, ht⟩ := foldl_env_keeps as t
  exact ⟨hp, hr, hq, by rw [ht], by rw [ht]⟩

/-- R70: a status read takes and gives no byte. -/
theorem State.SameEngine.readStatus (t : State) : t.SameEngine t.readStatus :=
  ⟨rfl, rfl, rfl, by simp [takenBytes], by simp [givenBytes]⟩

/-- The engine's next step, and the actions after it. -/
theorem Schedule.reaches_step {e : Schedule} {s t v : State} {k : Nat} (h : e.reaches s k t) (hs : step t = .next v) :
    ∃ u, e.reaches s (k + 1) u ∧ v.SameEngine u :=
  ⟨_, Schedule.reaches_succ h hs, State.SameEngine.env _ _⟩

/-- R62, `LIVE_HOST_OUT`: a `Put` that holds while the transport does not accept comes to a step that accepts. -/
theorem Schedule.put_comes {e : Schedule} {s t : State} {k : Nat} (live : e.liveHostOut s) (h : e.reaches s k t)
    (hp : t.phase = .reply ∨ t.phase = .rxEmit)
    (holds : ∀ u : State, u.phase = t.phase → u.regs = t.regs → u.ready = false → step u = .next u) :
    ∃ j u, e.reaches s j u ∧ t.SameEngine u ∧ u.ready = true := by
  obtain ⟨j, u, hj, hu, hq⟩ := live k t h hp
  obtain ⟨n, rfl⟩ := Nat.exists_eq_add_of_le hj
  refine Schedule.wait_ends t.SameEngine (fun u => u.ready = true) (fun u hi hy => ?_) n k t h (.refl t) ⟨u, hu, hq⟩
  exact ⟨u, holds u hi.1 hi.2.1 (by simpa using hy), fun as => hi.trans (.env u as)⟩

/-- R242, `LIVE_TX`, `LIVE_RX`, `LIVE_BUSY`: a poll that spins while the status fails its test comes to a read that passes. -/
theorem Schedule.poll_passes {e : Schedule} {s t : State} {k : Nat} (p : Phase) (q : Params → Word → Prop)
    (live : e.leadsTo s (fun t => t.phase = p) (fun t => t.phase = p ∧ q t.params t.nextStatus)) (h : e.reaches s k t)
    (hp : t.phase = p)
    (spins : ∀ u : State, u.phase = t.phase → u.regs = t.regs → ¬ q u.params u.nextStatus → step u = .next u.readStatus) :
    ∃ j u, e.reaches s j u ∧ t.SameEngine u ∧ q u.params u.nextStatus := by
  obtain ⟨j, u, hj, hu, _, hq⟩ := live k t h hp
  obtain ⟨n, rfl⟩ := Nat.exists_eq_add_of_le hj
  refine Schedule.wait_ends t.SameEngine (fun u => q u.params u.nextStatus) (fun u hi hn => ?_) n k t h (.refl t) ⟨u, hu, hq⟩
  exact ⟨_, spins u hi.1 hi.2.1 hn, fun as => (hi.trans (.readStatus u)).trans (.env _ as)⟩

/-- A step takes the bytes it takes from the head of `tin`. -/
theorem step_takenBytes {s t : State} (h : step s = .next t) :
    takenBytes t.trace ++ t.tin = takenBytes s.trace ++ s.tin := by
  cases step_effect h with
  | get b rest regs p hin => simp [takenBytes, hin]
  | _ => simp [takenBytes]

/-- R44: at every step of a run, what has been taken and what waits in `tin` is what waited at first and what was sent. -/
theorem Schedule.reaches_bytes {e : Schedule} {s : State} : ∀ k t, e.reaches s k t →
    takenBytes t.trace ++ t.tin = takenBytes s.trace ++ (s.tin ++ e.sent k) := by
  refine Schedule.reaches_induction _ ?_ ?_
  · rw [foldl_env_tin, (foldl_env_keeps _ _).2.2.2]; rfl
  · intro k t u h hs
    rw [foldl_env_tin, (foldl_env_keeps _ _).2.2.2, ← List.append_assoc, step_takenBytes hs, h]
    simp [Schedule.sent]

/-- What has been sent only grows. -/
theorem Schedule.sent_prefix (e : Schedule) {k j : Nat} (h : k ≤ j) : e.sent k <+: e.sent j := by
  obtain ⟨n, rfl⟩ := Nat.exists_eq_add_of_le h
  induction n with
  | zero => exact List.prefix_refl _
  | succ n ih => exact (ih (by omega)).trans (List.prefix_append _ _)

/-- R61, `LIVE_HOST_IN`: a `Get` that holds while `tin` is empty comes to a step with the next byte of the bytes that are all
sent eventually at the head of `tin`. -/
theorem Schedule.get_comes {e : Schedule} {s t : State} {k : Nat} {all taken rest : List Byte} {b : Byte}
    (live : ∃ j, all <+: s.tin ++ e.sent j) (h : e.reaches s k t)
    (holds : ∀ u : State, u.phase = t.phase → u.tin = [] → step u = .next u)
    (ht : takenBytes t.trace = takenBytes s.trace ++ taken) (hall : taken ++ b :: rest = all) :
    ∃ j u more, e.reaches s j u ∧ t.SameEngine u ∧ u.tin = b :: more := by
  obtain ⟨m, hm⟩ := live
  have grows {k j : Nat} (h : k ≤ j) : s.tin ++ e.sent k <+: s.tin ++ e.sent j :=
    (List.prefix_append_right_inj _).mpr (e.sent_prefix h)
  -- At a step of the wait, the bytes not yet taken are in `tin`, as far as they are sent.
  have waits {k : Nat} {u : State} (hu : e.reaches s k u) (hi : t.SameEngine u) : taken ++ u.tin = s.tin ++ e.sent k := by
    have := Schedule.reaches_bytes k u hu
    rw [hi.2.2.2.1, ht, List.append_assoc] at this
    exact List.append_cancel_left this
  -- So a byte at the head of `tin` is the next one.
  have isNext {k : Nat} {u : State} {c : Byte} {more : List Byte} (hu : e.reaches s k u) (hi : t.SameEngine u)
      (hin : u.tin = c :: more) : c = b := by
    have h1 : taken ++ [b] <+: s.tin ++ e.sent (max k m) :=
      (List.IsPrefix.trans ⟨rest, by simpa using hall⟩ hm).trans (grows (Nat.le_max_right k m))
    have h2 : taken ++ [c] <+: s.tin ++ e.sent (max k m) :=
      (List.IsPrefix.trans ⟨more, by rw [← waits hu hi, hin]; simp⟩ (grows (Nat.le_refl k))).trans (grows (Nat.le_max_left k m))
    simpa using ((List.prefix_of_prefix_length_le h1 h2 (by simp)).eq_of_length (by simp)).symm
  have run : ∀ n k u, e.reaches s k u → t.SameEngine u → m ≤ k + n →
      ∃ j v c more, e.reaches s j v ∧ t.SameEngine v ∧ v.tin = c :: more := by
    intro n
    induction n with
    | zero =>
      intro k u hu hi hk
      have hlen := (hm.trans (grows (show m ≤ k by omega))).length_le
      rw [← waits hu hi] at hlen
      cases hin : u.tin with
      | nil => rw [hin, ← hall] at hlen; simp at hlen
      | cons c more => exact ⟨k, u, c, more, hu, hi, hin⟩
    | succ n ih =>
      intro k u hu hi hk
      cases hin : u.tin with
      | cons c more => exact ⟨k, u, c, more, hu, hi, hin⟩
      | nil =>
        obtain ⟨v, hv, hs⟩ := Schedule.reaches_step hu (holds u hi.1 hin)
        exact ih (k + 1) v hv (hi.trans hs) (by omega)
  obtain ⟨j, u, c, more, hu, hi, hin⟩ := run m k t h (.refl t) (by omega)
  exact ⟨j, u, more, hu, hi, isNext hu hi hin ▸ hin⟩

end Sys2Proof.Machine
end

