-- ==== Sys2Proof/Tests/Slice0.lean ====
section
/-! SUPPORT. Small tests. Expected values are the spec's own: the encodings of spec/30_encoding.md R92 and R101, and the vectors
E0 to P6 of spec/95_test_vectors.md. The theorems named `witness_` show a concrete state and operands that meet all the
hypotheses of a statement together, one for each clause. -/

namespace Sys2Proof.Tests

open Machine

/-! ### Helpers -/

/-- The next state of an outcome, if it has one. -/
def next? (o : Host.Outcome State Fault Refusal) : Option State :=
  match o with
  | .next s => some s
  | .fault _ => none
  | .refused _ => none

/-- Status words of the tests: `0` and every other word read as the reference environment's `{-, 1, 0}` (D27), `1` as
`{-, 1, 1}`, `2` as `{-, 0, 0}`, `3` as `{b, 0, 0}`; `P_TX_HWM = 1`; the name is "ABCDEFGHIJKLMNO" (QV3). -/
def refParams : Params where
  regIndices := ⟨0, 1, 2, 3⟩
  statusRows := [(1#32, ⟨false, 1, 1⟩), (2#32, ⟨false, 0, 0⟩), (3#32, ⟨true, 0, 0⟩)]
  statusElse := ⟨false, 1, 0⟩
  txHwmLessOne := 0
  cmdFifoDepth := none
  ctrlLenBits := none
  pgmNameCodes := [0x40, 0x41, 0x42, 0x43, 0x44, 0x45, 0x46, 0x47, 0x48, 0x49, 0x4A, 0x4B, 0x4C, 0x4D, 0x4E]

/-- The start state of the vectors: reset, with the bytes the host has sent and what the SPI master will answer. -/
def start (tin : List Byte) (status words : List Word) : State :=
  { State.reset with
    params := refParams
    tin := tin
    spi := { State.reset.spi with statusNext := status, rxWords := words } }

/-- In phase `p`, with registers of an operation `cl`, `rl` whose burst has `rem` bytes left. -/
def inBurst (p : Phase) (cl rl rem : U24) (tin : List Byte) (status words : List Word) : State :=
  { start tin status words with
    phase := p
    regs := { Regs.unwritten with
      op := some 0x13#8
      cl := some cl
      rl := some rl
      mode := some (burstMode rl)
      len := some (burstLength cl rl)
      cmdRem := some 0#24
      rem := some rem } }

/-- In a phase of the data word, with the word, its size and the next lane. -/
def inWord (p : Phase) (cl rl rem : U24) (w : Word) (n j : Nat) (tin : List Byte) : State :=
  let s := inBurst p cl rl rem tin [] []
  { s with regs := { s.regs with word := some w, n := some n, j := some j } }

/-- In `ARG`, with what has been taken so far. -/
def inArg (op : Byte) (args : List Byte) (argc : Nat) (tin : List Byte) : State :=
  { start tin [] [] with
    phase := .arg
    regs := { Regs.unwritten with op := some op, args := some args, argc := some argc } }

/-- In `REPLY`, with what is still to put. -/
def inReply (r : List Byte) (a : After) : State :=
  { start [] [] [] with phase := .reply, regs := { Regs.unwritten with reply := some r, after := some a } }

/-- In `CMD_PUT` of an operation `cl`, 1 with `c` command bytes to go, under a command FIFO of the given depth. -/
def inCmdPut (depth : Option Nat) (cl c : U24) : State :=
  let s := inBurst .cmdPut cl 1#24 1#24 [] [] []
  { s with
    params := { refParams with cmdFifoDepth := depth }
    regs := { s.regs with cmdRem := some c, cbyte := some 0xA4#8 } }

/-- In `SPI_CTRL` of an operation `cl`, `rl`, under a control length field of the given width. -/
def inCtrl (bits : Option Nat) (cl rl : U24) : State :=
  { inBurst .spiCtrl cl rl 0#24 [] [] [] with params := { refParams with ctrlLenBits := bits } }

/-! ### Well-formedness: each check refuses an ill-formed term -/

theorem test_wf_refuses_unknown06 : (Instr.unknown06 0x08#8).wf = false := by decide
theorem test_wf_refuses_unknown08 : (Instr.unknown08 0x10#8).wf = false := by decide
theorem test_wf_refuses_unknown16 : (Instr.unknown16 0x15#8).wf = false := by decide
theorem test_wf_refuses_unknown18 : (Instr.unknown18 0x20#8).wf = false := by decide
theorem test_wf_refuses_unknown20 : (Instr.unknown20 0x40#8).wf = false := by decide
theorem test_wf_refuses_unknown40 : (Instr.unknown40 0x80#8).wf = false := by decide
theorem test_wf_refuses_unknown80 : (Instr.unknown80 0x7F#8).wf = false := by decide
theorem test_wf_refuses_ill_formed_command : (Frame.mk (.unknown06 0x00#8) [] []).wf = false := by decide
theorem test_wf_refuses_missing_command_byte : (Frame.mk (.oSpiop 2#24 1#24) [0x9F#8] []).wf = false := by decide
theorem test_wf_refuses_data_of_a_read : (Frame.mk (.oSpiop 1#24 1#24) [0x9F#8] [0x00#8]).wf = false := by decide
theorem test_wf_refuses_missing_data_of_a_write : (Frame.mk (.oSpiop 1#24 0#24) [0x06#8] []).wf = false := by decide

/-! ### Decoding: every constructor's word, from the opcode map (R92, R95, opcode_table.json) -/

theorem test_decode_nop : decode [0x00#8] = .ok (.nop, []) := by decide
theorem test_decode_qIface : decode [0x01#8] = .ok (.qIface, []) := by decide
theorem test_decode_qCmdmap : decode [0x02#8] = .ok (.qCmdmap, []) := by decide
theorem test_decode_qPgmname : decode [0x03#8] = .ok (.qPgmname, []) := by decide
theorem test_decode_qSerbuf : decode [0x04#8] = .ok (.qSerbuf, []) := by decide
theorem test_decode_qBustype : decode [0x05#8] = .ok (.qBustype, []) := by decide
theorem test_decode_syncnop : decode [0x10#8] = .ok (.syncnop, []) := by decide
theorem test_decode_sBustype : decode [0x12#8, 0x12#8] = .ok (.sBustype 0x12#8, []) := by decide
theorem test_decode_sPinState : decode [0x15#8, 0x13#8] = .ok (.sPinState 0x13#8, []) := by decide
theorem test_decode_unknown06 : decode [0x07#8, 0x00#8] = .ok (.unknown06 0x07#8, [0x00#8]) := by decide
theorem test_decode_unknown08 : decode [0x0F#8] = .ok (.unknown08 0x0F#8, []) := by decide
theorem test_decode_unknown11 : decode [0x11#8] = .ok (.unknown11, []) := by decide
theorem test_decode_unknown14 : decode [0x14#8] = .ok (.unknown14, []) := by decide
theorem test_decode_unknown16 : decode [0x16#8, 0x00#8] = .ok (.unknown16 0x16#8, [0x00#8]) := by decide
theorem test_decode_unknown18 : decode [0x1F#8] = .ok (.unknown18 0x1F#8, []) := by decide
theorem test_decode_unknown20 : decode [0x3F#8] = .ok (.unknown20 0x3F#8, []) := by decide
theorem test_decode_unknown40 : decode [0x40#8] = .ok (.unknown40 0x40#8, []) := by decide
theorem test_decode_unknown80 : decode [0x80#8] = .ok (.unknown80 0x80#8, []) := by decide

/-- EV1, EV3: distinct bytes in every place of both length fields (R96). -/
theorem test_decode_oSpiop : decode [0x13#8, 0x01#8, 0x02#8, 0x03#8, 0x00#8, 0x00#8, 0x01#8, 0x9F#8] =
    .ok (.oSpiop 0x030201#24 0x010000#24, [0x9F#8]) := by decide

/-- R101's syntax, byte for byte. -/
theorem test_encode_oSpiop : encode (.oSpiop 0x030201#24 0x060504#24) =
    [0x13#8, 0x01#8, 0x02#8, 0x03#8, 0x04#8, 0x05#8, 0x06#8] := by decide

theorem test_decode_waits_for_arguments :
    decode [0x12#8] = .error .missingArguments ∧ decode [0x13#8, 0x00#8] = .error .missingArguments ∧
      decode [] = .error .noOpcode := by decide

/-- EV7, EV8: frame lengths 11 and 9, and the reply length 6. -/
theorem test_frame_lengths : (Instr.oSpiop 2#24 0#24).frameLength = 11 ∧ (Instr.oSpiop 2#24 5#24).frameLength = 9 ∧
    (Instr.oSpiop 2#24 5#24).replyLength = 6 ∧ (Instr.sBustype 0x08#8).frameLength = 2 := by decide

/-- E6's frame, and the bytes after it. -/
theorem test_decodeFrame_write :
    decodeFrame [0x13#8, 0x02#8, 0x00#8, 0x00#8, 0x00#8, 0x00#8, 0x00#8, 0xA0#8, 0xA1#8, 0xD0#8, 0xD1#8, 0x10#8] =
      .ok (⟨.oSpiop 2#24 0#24, [0xA0#8, 0xA1#8], [0xD0#8, 0xD1#8]⟩, [0x10#8]) := by decide

theorem test_decodeTableWord : decodeTableWord 8 0x13 = some (.oSpiop 0#24 0#24) ∧
    decodeTableWord 56 0x06050403020113 = some (.oSpiop 0x030201#24 0x060504#24) ∧
    decodeTableWord 16 0x0812 = some (.sBustype 0x08#8) ∧ decodeTableWord 16 0x0080 = some (.unknown80 0x80#8) := by decide

/-- A placed command is the very next thing the machine runs after reset. -/
theorem test_withFetchWord_runs_the_command :
    ((next? (step (State.reset.withFetchWord 8 0x01))).map fun s => (s.phase, s.regs.reply)) =
      some (.reply, some [0x06#8, 0x01#8, 0x00#8]) ∧
    ((next? (step (State.reset.withFetchWord 56 0x00000300000113))).map fun s => (s.phase, s.regs.cl, s.regs.rl)) =
      some (.reply, some 1#24, some 3#24) := by decide

/-! ### One step of each command -/

/-- The reply a command queues in the step that takes its last byte. -/
def replyOf (s : State) : Option (List Byte) := (next? (step s)).bind fun t => t.regs.reply

theorem test_nop : replyOf (start [0x00#8] [] []) = some [0x06#8] := by decide
theorem test_syncnop : replyOf (start [0x10#8] [] []) = some [0x15#8, 0x06#8] := by decide
theorem test_qIface : replyOf (start [0x01#8] [] []) = some [0x06#8, 0x01#8, 0x00#8] := by decide
/-- QV7 and E4: the map's first five bytes, and 33 in all. -/
theorem test_qCmdmap : (replyOf (start [0x02#8] [] [])).map (fun r => (r.take 5, r.length)) =
    some ([0x06#8, 0x3F#8, 0x00#8, 0x2D#8, 0x00#8], 33) := by decide
/-- QV3. -/
theorem test_qPgmname : replyOf (start [0x03#8] [] []) = some [0x06#8, 0x41#8, 0x42#8, 0x43#8, 0x44#8, 0x45#8, 0x46#8,
    0x47#8, 0x48#8, 0x49#8, 0x4A#8, 0x4B#8, 0x4C#8, 0x4D#8, 0x4E#8, 0x4F#8, 0x00#8] := by decide
/-- QV4: a name of no characters. -/
theorem test_qPgmname_empty :
    replyOf { start [0x03#8] [] [] with params := { refParams with pgmNameCodes := [] } } =
      some (0x06#8 :: List.replicate 16 0x00#8) := by decide
theorem test_qSerbuf : replyOf (start [0x04#8] [] []) = some [0x06#8, 0xFF#8, 0xFF#8] := by decide
theorem test_qBustype : replyOf (start [0x05#8] [] []) = some [0x06#8, 0x08#8] := by decide
theorem test_sBustype_accepts_spi : replyOf (inArg 0x12#8 [] 1 [0x08#8]) = some [0x06#8] := by decide
/-- DV4: equality, not a bit test. -/
theorem test_sBustype_refuses_more_bits : replyOf (inArg 0x12#8 [] 1 [0x09#8]) = some [0x15#8] := by decide
/-- DV8. -/
theorem test_sPinState : replyOf (inArg 0x15#8 [] 1 [0x15#8]) = some [0x06#8] := by decide
theorem test_unknown06 : replyOf (start [0x06#8] [] []) = some [0x15#8] := by decide
theorem test_unknown08 : replyOf (start [0x09#8] [] []) = some [0x15#8] := by decide
theorem test_unknown11 : replyOf (start [0x11#8] [] []) = some [0x15#8] := by decide
theorem test_unknown14 : replyOf (start [0x14#8] [] []) = some [0x15#8] := by decide
theorem test_unknown16 : replyOf (start [0x16#8] [] []) = some [0x15#8] := by decide
theorem test_unknown18 : replyOf (start [0x18#8] [] []) = some [0x15#8] := by decide
theorem test_unknown20 : replyOf (start [0x20#8] [] []) = some [0x15#8] := by decide
theorem test_unknown40 : replyOf (start [0x40#8] [] []) = some [0x15#8] := by decide
theorem test_unknown80 : replyOf (start [0xFF#8] [] []) = some [0x15#8] := by decide

/-- P2, steps 2 to 7: `cl = 1`, receive, `len = 3`, and the transaction after the acknowledgment. -/
theorem test_oSpiop_read :
    ((next? (step (inArg 0x13#8 [0x01#8, 0x00#8, 0x00#8, 0x03#8, 0x00#8] 1 [0x00#8]))).map
      fun s => (s.regs.cl, s.regs.mode, s.regs.len, s.regs.after)) =
      some (some 1#24, some .rx, some 3#24, some .spiCtrl) := by decide

/-- R163: a write's length is the command's. -/
theorem test_oSpiop_write :
    ((next? (step (inArg 0x13#8 [0x05#8, 0x00#8, 0x00#8, 0x00#8, 0x00#8] 1 [0x00#8]))).map
      fun s => (s.regs.mode, s.regs.len)) = some (some .tx, some 5#24) := by decide

/-! ### One step of each phase -/

/-- P2, step 9: `WrCtrl(5, 3, 1)`, and the phase after it. -/
theorem test_spiCtrl : ((next? (step (inCtrl none 1#24 3#24))).map fun s => (s.trace, s.phase, s.regs.cmdRem, s.regs.rem)) =
    some ([.wrCtrl 5#3 3#24 1#24], .cmdGet, some 1#24, some 3#24) := by decide

/-- V13 (b): 65535 fits in 16 bits; R178 (b): the receive burst follows at once. -/
theorem test_spiCtrl_fits : ((next? (step (inCtrl (some 16) 0#24 65535#24))).map fun s => (s.trace, s.phase)) =
    some ([.wrCtrl 5#3 65535#24 0#24], .rxPoll) := by decide

/-- V13 (a), (c): a length of `2^16` faults without writing. -/
theorem test_spiCtrl_overflow :
    ((next? (step (inCtrl (some 16) 0#24 65536#24))).map fun s => (s.trace, s.phase, s.fault)) =
      some ([], .faulted, some .ctrlFieldOverflow) ∧
    ((next? (step (inCtrl (some 16) 65536#24 1#24))).map fun s => s.fault) = some (some .ctrlFieldOverflow) := by decide

/-- V12: the fifth command byte faults under a depth of 4, the fourth does not. -/
theorem test_cmdPut_overrun :
    ((next? (step (inCmdPut (some 4) 5#24 1#24))).map fun s => (s.trace, s.phase, s.fault)) =
      some ([], .faulted, some .cmdFifoOverrun) ∧
    ((next? (step (inCmdPut (some 4) 5#24 2#24))).map fun s => (s.trace, s.phase, s.fault)) =
      some ([.wrCmdFifo 0xA4#8], .cmdGet, none) := by decide

/-- V5: `tx_level = P_TX_HWM` is no capacity. -/
theorem test_txPoll_strict :
    ((next? (step (inBurst .txPoll 1#24 0#24 1#24 [0x00#8] [1#32] []))).map fun s => (s.phase, s.tin)) =
      some (.txPoll, [0x00#8]) ∧
    ((next? (step (inBurst .txPoll 1#24 0#24 1#24 [0x00#8] [0#32] []))).map fun s => (s.phase, s.regs.n)) =
      some (.txFill, some 1) := by decide

/-- E6: the fourth byte of `0xEFBEADDE`. -/
theorem test_txFill : ((next? (step (inWord .txFill 4#24 0#24 4#24 0x00BEADDE#32 4 3 [0xEF#8]))).map
    fun s => (s.phase, s.regs.word)) = some (.txPush, some 0xEFBEADDE#32) := by decide

/-- V4: after the full word one byte is left, so the burst polls again. -/
theorem test_txPush : ((next? (step (inWord .txPush 5#24 0#24 5#24 0x44332211#32 4 4 []))).map
    fun s => (s.phase, s.trace, s.regs.rem)) = some (.txPoll, [.wrDataFifo 0x44332211#32], some 1#24) := by decide

/-- V6: no data, no pop. -/
theorem test_rxPoll : ((next? (step (inBurst .rxPoll 0#24 2#24 2#24 [] [2#32] []))).map fun s => s.phase) = some .rxPoll ∧
    ((next? (step (inBurst .rxPoll 0#24 2#24 2#24 [] [0#32] []))).map fun s => s.phase) = some .rxPop := by decide

/-- P2, step 13. -/
theorem test_rxPop : ((next? (step (inBurst .rxPop 1#24 3#24 3#24 [] [] [0x001840EF#32]))).map
    fun s => (s.phase, s.regs.word, s.regs.n, s.regs.j)) = some (.rxEmit, some 0x001840EF#32, some 3, some 0) := by decide

/-- P2, step 16: the last significant lane; lane 3 is not put. -/
theorem test_rxEmit : ((next? (step (inWord .rxEmit 1#24 3#24 3#24 0x001840EF#32 3 2 []))).map
    fun s => (s.phase, s.tout, s.regs.rem)) = some (.busyPoll, [0x18#8], some 0#24) := by decide

/-- V7: busy, then not busy. -/
theorem test_busyPoll :
    ((next? (step (inBurst .busyPoll 0#24 0#24 0#24 [] [3#32] []))).map fun s => s.phase) = some .busyPoll ∧
      ((next? (step (inBurst .busyPoll 0#24 0#24 0#24 [] [2#32] []))).map fun s => s.phase) = some .awaitOpcode := by decide

/-- DV11, DV13, DV14: holds change nothing. -/
theorem test_holds :
    next? (step (start [] [] [])) = some (start [] [] []) ∧
    next? (step (inArg 0x12#8 [] 1 [])) = some (inArg 0x12#8 [] 1 []) ∧
    next? (step { inReply [0x06#8] .awaitOpcode with ready := false }) =
      some { inReply [0x06#8] .awaitOpcode with ready := false } := by decide

/-- XV5. -/
theorem test_faulted_stays : next? (step ((start [0x00#8] [] []).raise .cmdFifoOverrun)) =
    some ((start [0x00#8] [] []).raise .cmdFifoOverrun) := by decide

/-- The named premise of the start states of the vectors (R272), whatever the master will show and return, and whether or not
the transport accepts yet. -/
theorem test_start_is_bootReady (tin : List Byte) (status words : List Word) (ready : Bool) :
    ({ start tin status words with ready := ready } : State).bootReady := ⟨rfl, rfl, rfl, rfl⟩

/-- R272: a busy master is not ready. -/
theorem test_busy_is_not_bootReady : ¬ ((start [] [] []).env (.spiSettles ⟨true, 0, 0⟩)).bootReady :=
  fun h => absurd h.2.1 (by decide)

/-- R182: what a pushed transaction is meant to send; E6's bytes, the command first. -/
theorem test_intendedBytes :
    (SpiMaster.mk ⟨3#3, 3#24, 3#24⟩ ⟨true, 0, 1⟩ [0x02#8, 0x00#8, 0x10#8] [0xEFBEADDE#32] [] [] 0).intendedBytes =
      [0x02#8, 0x00#8, 0x10#8, 0xDE#8, 0xAD#8, 0xBE#8] := by decide

/-! ### Witnesses: the hypotheses of the statements can be met, clause by clause

The statements are those of Certificates/Slice0/Obligations.lean, by name. A clause that asks of a list of bytes or words that it
is `b :: rest` is met by the state shown. -/

/-- A coherent state in `TX_FILL`: the last byte of a five-byte write is due. -/
def fillState (tin : List Byte) : State := inWord .txFill 5#24 0#24 1#24 0#32 1 0 tin

/-- A coherent state in `RX_EMIT`: lane 0 of a three-byte read is due. -/
def emitState (ready : Bool) : State := { inWord .rxEmit 1#24 3#24 3#24 0x001840EF#32 3 0 [] with ready := ready }

/-- A coherent state in `CMD_GET`: one command byte of two is due. -/
def cmdState (tin : List Byte) : State :=
  let s := inBurst .cmdGet 2#24 1#24 1#24 tin [] []
  { s with regs := { s.regs with cmdRem := some 1#24 } }

/-- A status decoding in which every word shows capacity, data and not busy, as in the reference environment (D27). -/
def alwaysReady : Params := { refParams with statusRows := [] }

theorem running {s : State} {p : Phase} (h : s.phase = p) (hf : s.fault = none) (hp : p ≠ .faulted) :
    s.fault = none ↔ s.phase ≠ .faulted :=
  ⟨fun _ => h ▸ hp, fun _ => hf⟩

theorem start_coherent (tin : List Byte) (status words : List Word) : (start tin status words).coherent :=
  ⟨running (p := .awaitOpcode) rfl rfl (by decide), trivial⟩

theorem inArg_coherent (tin : List Byte) : (inArg 0x12#8 [] 1 tin).coherent :=
  ⟨running (p := .arg) rfl rfl (by decide), 0x12#8, [], 1, rfl, rfl, rfl, by decide, by decide⟩

theorem cmdState_coherent (tin : List Byte) : (cmdState tin).coherent :=
  ⟨running (p := .cmdGet) rfl rfl (by decide), 2#24, 1#24, 1#24, ⟨rfl, rfl, rfl, rfl⟩, rfl, by decide, by decide, rfl⟩

theorem fillState_coherent (tin : List Byte) : (fillState tin).coherent :=
  ⟨running (p := .txFill) rfl rfl (by decide), 5#24, 1#24, 0#32, 0, ⟨⟨rfl, rfl, rfl, rfl⟩, rfl, rfl, by decide, by decide⟩, rfl, rfl, by decide, rfl⟩

theorem inReply_coherent (ready : Bool) : ({ inReply [0x06#8] .awaitOpcode with ready := ready } : State).coherent :=
  ⟨running (p := .reply) rfl rfl (by decide), ⟨[0x06#8], rfl, by decide, by decide⟩, .inl rfl⟩

theorem emitState_coherent (ready : Bool) : (emitState ready).coherent :=
  ⟨running (p := .rxEmit) rfl rfl (by decide), 1#24, 3#24, 3#24, 0x001840EF#32, 0, by decide,
    ⟨⟨rfl, rfl, rfl, rfl⟩, rfl, rfl, by decide, by decide⟩, rfl, rfl, by decide, rfl⟩

theorem witness_EncodedCommandDecodesBack :
    (Instr.unknown08 0x08#8).wf = true ∧ (Instr.unknown08 0x0F#8).wf = true ∧ (Instr.oSpiop 0xFFFFFF#24 0#24).wf = true := by
  decide

theorem witness_EncodedFrameDecodesBack :
    (Frame.mk (.oSpiop 2#24 0#24) [0xA0#8, 0xA1#8] [0xD0#8, 0xD1#8]).wf = true ∧
      (Frame.mk (.oSpiop 1#24 3#24) [0x9F#8] []).wf = true ∧ (Frame.mk (.oSpiop 0#24 0#24) [] []).wf = true := by decide

theorem witness_DecodedCommandEncodesBack : decode [0x12#8, 0x09#8, 0x00#8] = .ok (.sBustype 0x09#8, [0x00#8]) := by decide

theorem witness_DecoderWaitsOnlyForArguments :
    ([] : List Byte).length < fixedArgs 0x12#8 ∧ (List.replicate 5 0x00#8).length < fixedArgs 0x13#8 ∧
      fixedArgs 0x13#8 ≤ (List.replicate 6 0x00#8).length ∧ fixedArgs 0x14#8 ≤ ([] : List Byte).length := by decide

theorem witness_UnlistedOpcodeIsUnknown : ∀ op ∈ [0x06#8, 0x0F#8, 0x11#8, 0x14#8, 0x16#8, 0xFF#8],
    op ∉ [0x00#8, 0x01#8, 0x02#8, 0x03#8, 0x04#8, 0x05#8, 0x10#8, 0x12#8, 0x13#8, 0x15#8] := by decide

theorem witness_UnknownActions : Instr.unknown14 ∈ [Instr.unknown06 0x06#8, .unknown08 0x06#8, .unknown11, .unknown14,
    .unknown16 0x06#8, .unknown18 0x06#8, .unknown20 0x06#8, .unknown40 0x06#8, .unknown80 0x06#8] := by decide

theorem witness_OpcodeStepFollowsTable :
    ((start [] [] []).phase = .awaitOpcode ∧ (start [] [] []).tin = []) ∧
      ∀ op ∈ [0x12#8, 0x15#8, 0x13#8, 0x00#8, 0x14#8],
        (start [op, 0x08#8] [] []).phase = .awaitOpcode ∧ (start [op, 0x08#8] [] []).tin = [op, 0x08#8] := by decide

theorem witness_ArgumentStep_last :
    (inArg 0x12#8 [] 1 [0x08#8]).phase = .arg ∧ (inArg 0x12#8 [] 1 [0x08#8]).regs.op = some 0x12#8 ∧
      (inArg 0x12#8 [] 1 [0x08#8]).regs.args = some [] ∧ (inArg 0x12#8 [] 1 [0x08#8]).regs.argc = some (0 + 1) ∧
      (inArg 0x12#8 [] 1 [0x08#8]).tin = [0x08#8] ∧ decode (0x12#8 :: ([] ++ [0x08#8])) = .ok (.sBustype 0x08#8, []) := by
  decide

theorem witness_ArgumentStep_more :
    (inArg 0x13#8 [0x01#8] 5 [0x00#8]).phase = .arg ∧ (inArg 0x13#8 [0x01#8] 5 [0x00#8]).regs.op = some 0x13#8 ∧
      (inArg 0x13#8 [0x01#8] 5 [0x00#8]).regs.args = some [0x01#8] ∧
      (inArg 0x13#8 [0x01#8] 5 [0x00#8]).regs.argc = some (4 + 1) ∧ (inArg 0x13#8 [0x01#8] 5 [0x00#8]).tin = [0x00#8] ∧
      (inArg 0x13#8 [0x01#8] 5 []).tin = [] := by decide

theorem witness_StepRunsDecodedCommand :
    (start [0x01#8, 0x00#8] [] []).phase = .awaitOpcode ∧ (start [0x01#8, 0x00#8] [] []).tin = [0x01#8, 0x00#8] ∧
      decode [0x01#8] = .ok (.qIface, []) ∧
      decode (0x13#8 :: ([0x01#8, 0x00#8, 0x00#8, 0x03#8, 0x00#8] ++ [0x00#8])) = .ok (.oSpiop 1#24 3#24, []) := by decide

theorem witness_RegistersDoNotCarryOver :
    (start [0x00#8] [] []).phase = .awaitOpcode ∧ (start [0x00#8] [] []).tin ≠ [] := by decide

theorem witness_ReplyStep :
    (inReply [0x15#8, 0x06#8] .awaitOpcode).phase = .reply ∧
      (inReply [0x15#8, 0x06#8] .awaitOpcode).regs.reply = some (0x15#8 :: [0x06#8]) ∧
      (inReply [0x06#8] .spiCtrl).regs.reply = some (0x06#8 :: []) ∧
      (inReply [0x06#8] .spiCtrl).regs.after = some .spiCtrl ∧ (inReply [0x06#8] .spiCtrl).ready = true ∧
      ({ inReply [0x06#8] .spiCtrl with ready := false } : State).ready = false := by decide

theorem witness_ShortCommandIsServed :
    (Instr.sPinState 0xFF#8).wf = true ∧ (∀ cl rl, Instr.sPinState 0xFF#8 ≠ .oSpiop cl rl) ∧
      (start (encode (.sPinState 0xFF#8) ++ [0x10#8]) [] []).phase = .awaitOpcode ∧
      (start (encode (.sPinState 0xFF#8) ++ [0x10#8]) [] []).ready = true ∧
      (start (encode (.sPinState 0xFF#8) ++ [0x10#8]) [] []).tin = encode (.sPinState 0xFF#8) ++ [0x10#8] :=
  ⟨rfl, fun _ _ => Instr.noConfusion, rfl, rfl, rfl⟩

theorem witness_SetBustypeIsServed : ∀ a0 ∈ [0x08#8, 0x09#8],
    (start [0x12#8, a0, 0x10#8] [] []).phase = .awaitOpcode ∧ (start [0x12#8, a0, 0x10#8] [] []).ready = true ∧
      (start [0x12#8, a0, 0x10#8] [] []).tin = 0x12#8 :: a0 :: [0x10#8] := by decide

/-- Both directions: `rl = 3` and `rl = 0`. -/
theorem witness_EarlyAcknowledgment : ∀ r0 ∈ [0x03#8, 0x00#8],
    let s := inArg 0x13#8 [0x01#8, 0x00#8, 0x00#8, r0, 0x00#8] 1 [0x00#8, 0x9F#8]
    s.phase = .arg ∧ s.regs.op = some 0x13#8 ∧ s.regs.args = some [0x01#8, 0x00#8, 0x00#8, r0, 0x00#8] ∧
      s.regs.argc = some 1 ∧ s.tin = 0x00#8 :: [0x9F#8] ∧ s.ready = true ∧
      1#24 = (0x01#8).setWidth 24 ||| (0x00#8).setWidth 24 <<< 8 ||| (0x00#8).setWidth 24 <<< 16 := by decide

/-- Three inputs at the boundary of a 16-bit field: `2^16` in either length, and `2^16 - 1`. -/
theorem witness_ControlStep :
    (inCtrl (some 16) 0#24 65536#24).phase = .spiCtrl ∧ (inCtrl (some 16) 0#24 65536#24).regs.mode = some .rx ∧
      (inCtrl (some 16) 0#24 65536#24).regs.len = some 65536#24 ∧ (inCtrl (some 16) 0#24 65536#24).regs.cl = some 0#24 ∧
      (inCtrl (some 16) 0#24 65536#24).params.ctrlLenBits = some 16 ∧ 2 ^ 16 ≤ (65536#24).toNat ∧
      (65535#24).toNat < 2 ^ 16 ∧ (inCtrl none 0#24 65536#24).params.ctrlLenBits = none :=
  ⟨rfl, rfl, rfl, rfl, rfl, by simp, by simp, rfl⟩

theorem witness_CommandStreaming_get :
    (cmdState []).phase = .cmdGet ∧ (cmdState []).tin = [] ∧ (cmdState [0x9F#8]).tin = 0x9F#8 :: [] := by decide

/-- Under a depth of 4: with one byte of five to go four have been written, with two to go three. -/
theorem witness_CommandStreaming_put :
    (inCmdPut (some 4) 5#24 1#24).phase = .cmdPut ∧ (inCmdPut (some 4) 5#24 1#24).regs.cbyte = some 0xA4#8 ∧
      (inCmdPut (some 4) 5#24 1#24).regs.cmdRem = some 1#24 ∧ 0#24 < 1#24 ∧ 1#24 ≤ 5#24 ∧
      (inCmdPut (some 4) 5#24 1#24).regs.cl = some 5#24 ∧ (inCmdPut (some 4) 5#24 1#24).regs.mode = some .rx ∧
      (inCmdPut (some 4) 5#24 1#24).regs.rem = some 1#24 :=
  ⟨rfl, rfl, rfl, by decide, by decide, rfl, rfl, rfl⟩

theorem witness_CommandStreaming_depth :
    (inCmdPut (some 4) 5#24 1#24).params.cmdFifoDepth = some ((5#24).toNat - (1#24).toNat) ∧
      (inCmdPut (some 4) 5#24 2#24).params.cmdFifoDepth ≠ some ((5#24).toNat - (2#24).toNat) ∧
      (inCmdPut none 5#24 1#24).params.cmdFifoDepth ≠ some ((5#24).toNat - (1#24).toNat) :=
  ⟨rfl, show some 4 ≠ some 3 by decide, show none ≠ some 4 by decide⟩

/-- Any status word; `test_txPoll_strict` has one on each side of the mark. -/
theorem witness_TransmitPoll (v : Word) :
    (inBurst .txPoll 1#24 0#24 1#24 [] [v] []).phase = .txPoll ∧
      (inBurst .txPoll 1#24 0#24 1#24 [] [v] []).regs.rem = some 1#24 ∧
      (inBurst .txPoll 1#24 0#24 1#24 [] [v] []).spi.statusNext = v :: [] := ⟨rfl, rfl, rfl⟩

theorem witness_TransmitFill :
    (fillState []).phase = .txFill ∧ (fillState []).regs.word = some 0#32 ∧ (fillState []).regs.j = some 0 ∧
      (fillState []).regs.n = some 1 ∧ (fillState []).tin = [] ∧ (fillState [0x55#8]).tin = 0x55#8 :: [] := by decide

/-- The last word of a burst (`rem = n = 4`), and one with more to come. -/
theorem witness_TransmitPush (rem : U24) :
    (inWord .txPush 5#24 0#24 rem 0x44332211#32 4 4 []).phase = .txPush ∧
      (inWord .txPush 5#24 0#24 rem 0x44332211#32 4 4 []).regs.word = some 0x44332211#32 ∧
      (inWord .txPush 5#24 0#24 rem 0x44332211#32 4 4 []).regs.rem = some rem ∧
      (inWord .txPush 5#24 0#24 rem 0x44332211#32 4 4 []).regs.n = some 4 ∧ 4 ≤ (4#24).toNat ∧ 4 ≤ (5#24).toNat :=
  ⟨rfl, rfl, rfl, rfl, by decide, by decide⟩

theorem witness_ReceivePoll (v : Word) :
    (inBurst .rxPoll 0#24 2#24 2#24 [] [v] []).phase = .rxPoll ∧
      (inBurst .rxPoll 0#24 2#24 2#24 [] [v] []).spi.statusNext = v :: [] := ⟨rfl, rfl⟩

theorem witness_ReceivePop :
    (inBurst .rxPop 0#24 2#24 2#24 [] [] [0x0000BBAA#32]).phase = .rxPop ∧
      (inBurst .rxPop 0#24 2#24 2#24 [] [] [0x0000BBAA#32]).regs.rem = some 2#24 ∧
      (inBurst .rxPop 0#24 2#24 2#24 [] [] [0x0000BBAA#32]).spi.rxWords = 0x0000BBAA#32 :: [] := by decide

/-- Any lane `j`; the last word of a burst (`rem = n = 3`), and one with more to come. -/
theorem witness_ReceiveEmit (rem : U24) (j : Nat) :
    (inWord .rxEmit 1#24 7#24 rem 0x001840EF#32 3 j []).phase = .rxEmit ∧
      (inWord .rxEmit 1#24 7#24 rem 0x001840EF#32 3 j []).regs.word = some 0x001840EF#32 ∧
      (inWord .rxEmit 1#24 7#24 rem 0x001840EF#32 3 j []).regs.rem = some rem ∧
      (inWord .rxEmit 1#24 7#24 rem 0x001840EF#32 3 j []).regs.j = some j ∧
      (inWord .rxEmit 1#24 7#24 rem 0x001840EF#32 3 j []).regs.n = some 3 ∧ 3 ≤ (3#24).toNat ∧ 3 ≤ (7#24).toNat ∧
      (inWord .rxEmit 1#24 7#24 rem 0x001840EF#32 3 j []).ready = true :=
  ⟨rfl, rfl, rfl, rfl, rfl, by decide, by decide, rfl⟩

theorem witness_BusyPoll (v : Word) :
    (inBurst .busyPoll 0#24 0#24 0#24 [] [v] []).phase = .busyPoll ∧
      (inBurst .busyPoll 0#24 0#24 0#24 [] [v] []).spi.statusNext = v :: [] := ⟨rfl, rfl⟩

theorem witness_UnscriptedReadsTakeFreeValues :
    (inBurst .busyPoll 0#24 0#24 0#24 [] [] []).phase = .busyPoll ∧
      (inBurst .busyPoll 0#24 0#24 0#24 [] [] []).spi.statusNext = [] ∧
      (inBurst .txPoll 1#24 0#24 1#24 [] [] []).phase = .txPoll ∧
      (inBurst .txPoll 1#24 0#24 1#24 [] [] []).regs.rem = some 1#24 ∧
      (inBurst .txPoll 1#24 0#24 1#24 [] [] []).spi.statusNext = [] ∧
      (inBurst .rxPoll 0#24 2#24 2#24 [] [] []).phase = .rxPoll ∧
      (inBurst .rxPoll 0#24 2#24 2#24 [] [] []).spi.statusNext = [] ∧
      (inBurst .rxPop 0#24 2#24 2#24 [] [] []).phase = .rxPop ∧
      (inBurst .rxPop 0#24 2#24 2#24 [] [] []).regs.rem = some 2#24 ∧
      (inBurst .rxPop 0#24 2#24 2#24 [] [] []).spi.rxWords = [] := by decide

theorem witness_PackingRoundTrip :
    ([] : List Byte).length ≤ 4 ∧ [0x11#8, 0x22#8, 0x33#8, 0x44#8].length ≤ 4 := by decide

/-- E6's shape with two bytes, and a frame after it. -/
theorem witness_WriteOperationIsServed :
    let f := Frame.mk (.oSpiop 2#24 0#24) [0xA0#8, 0xA1#8] [0xD0#8, 0xD1#8]
    let s := start (f.bytes ++ [0x10#8]) [0#32, 0#32, 7#32] []
    s.phase = .awaitOpcode ∧ s.ready = true ∧ f.cmd.length = (2#24).toNat ∧ f.data.length = (2#24).toNat ∧
      s.tin = f.bytes ++ [0x10#8] ∧ s.spi.statusNext = List.replicate (wordCount (2#24).toNat + 1) 0#32 ++ [7#32] ∧
      s.params.hasCapacity 0#32 = true ∧ s.params.isBusy 0#32 = false ∧ s.params.ctrlLenBits = none ∧
      s.params.cmdFifoDepth = none := by decide

/-- P2's frame, and a spare word. -/
theorem witness_ReadOperationIsServed :
    let f := Frame.mk (.oSpiop 1#24 3#24) [0x9F#8] []
    let s := start (f.bytes ++ [0x10#8]) [0#32, 0#32] [0x001840EF#32, 0#32]
    s.phase = .awaitOpcode ∧ s.ready = true ∧ 3#24 ≠ 0#24 ∧ f.cmd.length = (1#24).toNat ∧ s.tin = f.bytes ++ [0x10#8] ∧
      [0x001840EF#32].length = wordCount (3#24).toNat ∧ s.spi.rxWords = [0x001840EF#32] ++ [0#32] ∧
      s.spi.statusNext = List.replicate (wordCount (3#24).toNat + 1) 0#32 ++ [] ∧ s.params.hasData 0#32 = true ∧
      s.params.isBusy 0#32 = false ∧ s.params.ctrlLenBits = none ∧ s.params.cmdFifoDepth = none := by decide

theorem witness_ZeroLengthOperation :
    let s := start (0x13#8 :: List.replicate 6 0x00#8 ++ [0x05#8]) [0#32] []
    s.phase = .awaitOpcode ∧ s.ready = true ∧ s.tin = 0x13#8 :: List.replicate 6 0x00#8 ++ [0x05#8] ∧
      s.spi.statusNext = 0#32 :: [] ∧ s.params.isBusy 0#32 = false := by decide

/-- E6's frame and a `SYNCNOP`, sent in two pieces after the engine has begun to wait, to a transport that does not accept at
first. -/
def lateFrames : List Frame := [⟨.oSpiop 2#24 0#24, [0xA0#8, 0xA1#8], [0xD0#8, 0xD1#8]⟩, ⟨.syncnop, [], []⟩]

def lateSchedule : Schedule
  | 0 => []
  | 1 => [.hostSends ((lateFrames.flatMap Frame.bytes).take 5)]
  | 2 => [.hostSends ((lateFrames.flatMap Frame.bytes).drop 5), .transportAccepts true]
  | _ => []

def lateStart : State := { start [] [] [] with params := alwaysReady, ready := false }

/-- In that run: the parameters, the first two steps' waits, and a transport that accepts from then on. -/
theorem lateRun (k : Nat) (t : State) (h : lateSchedule.reaches lateStart k t) :
    t.params = alwaysReady ∧ (k < 2 → t.phase = .awaitOpcode) ∧ (k = 0 → t.tin = []) ∧ (2 ≤ k → t.ready = true) := by
  refine Schedule.reaches_induction (fun k t => t.params = alwaysReady ∧ (k < 2 → t.phase = .awaitOpcode) ∧
    (k = 0 → t.tin = []) ∧ (2 ≤ k → t.ready = true)) ?_ ?_ k t h
  · exact ⟨rfl, fun _ => rfl, fun _ => rfl, by simp⟩
  · rintro k t u ⟨hp, hw, ht, hy⟩ hs
    obtain ⟨keepPhase, _, keepParams, _⟩ := foldl_env_keeps (lateSchedule (k + 1)) u
    refine ⟨keepParams.trans ((step_params hs).trans hp), ?_, by simp, ?_⟩
    · intro hk
      have hold : step t = .next t := by simp [step, hw (by omega), fetchOpcode, State.getByte, ht (by omega), runFetch]
      rw [hold] at hs
      cases hs
      exact keepPhase.trans (hw (by omega))
    · intro hk
      match k, hk with
      | 1, _ => rfl
      | k + 2, _ => exact (step_ready hs).trans (hy (by omega))

theorem witness_CompleteFramesAreServed :
    lateStart.phase = .awaitOpcode ∧ (∀ f ∈ lateFrames, f.wf = true ∧ f.instr.fits lateStart.params) ∧
      lateSchedule.liveHostIn lateStart lateFrames :=
  ⟨rfl, fun _ hf => ⟨(by decide : ∀ f ∈ lateFrames, f.wf = true) _ hf, nofun, nofun⟩, 2, by decide⟩

/-- The four premises about the future, of the same run. -/
theorem witness_CompleteFramesAreServed_live :
    lateSchedule.liveHostOut lateStart ∧ lateSchedule.liveTx lateStart ∧ lateSchedule.liveRx lateStart ∧
      lateSchedule.liveBusy lateStart := by
  refine ⟨fun k t h hp => ?_, fun k t h hp => ?_, fun k t h hp => ?_, fun k t h hp => ?_⟩ <;>
    obtain ⟨hq, hw, _, hy⟩ := lateRun k t h <;> refine ⟨k, t, Nat.le_refl k, h, ?_⟩
  · by_cases hk : k < 2
    · simp [hw hk] at hp
    · exact hy (by omega)
  · exact ⟨hp, hq ▸ rfl⟩
  · exact ⟨hp, hq ▸ rfl⟩
  · exact ⟨hp, hq ▸ rfl⟩

/-- Of GetTakesHeadOrHolds and HoldsHaveNoTimeout: each of the four phases, with `tin` empty and not empty. -/
theorem witness_GetTakesHeadOrHolds (tin : List Byte) :
    ∀ s ∈ [start tin [] [], inArg 0x12#8 [] 1 tin, cmdState tin, fillState tin],
      s.coherent ∧ s.phase ∈ [Phase.awaitOpcode, .arg, .cmdGet, .txFill] ∧ s.tin = tin := by
  intro s h
  simp only [List.mem_cons, List.not_mem_nil, or_false] at h
  rcases h with rfl | rfl | rfl | rfl
  · exact ⟨start_coherent _ _ _, show Phase.awaitOpcode ∈ _ by decide, rfl⟩
  · exact ⟨inArg_coherent _, show Phase.arg ∈ _ by decide, rfl⟩
  · exact ⟨cmdState_coherent _, show Phase.cmdGet ∈ _ by decide, rfl⟩
  · exact ⟨fillState_coherent _, show Phase.txFill ∈ _ by decide, rfl⟩

/-- Of PutAppendsOrHolds and HoldsHaveNoTimeout: both phases, accepting and not. -/
theorem witness_PutAppendsOrHolds (ready : Bool) :
    ∀ s ∈ [{ inReply [0x06#8] .awaitOpcode with ready := ready }, emitState ready],
      s.coherent ∧ s.phase ∈ [Phase.reply, .rxEmit] ∧ s.ready = ready := by
  intro s h
  simp only [List.mem_cons, List.not_mem_nil, or_false] at h
  rcases h with rfl | rfl
  · exact ⟨inReply_coherent _, show Phase.reply ∈ _ by decide, rfl⟩
  · exact ⟨emitState_coherent _, show Phase.rxEmit ∈ _ by decide, rfl⟩

/-- V7: three busy reads, then an idle one. -/
theorem witness_BusySpinEndsAtFirstIdleRead :
    let s := inBurst .busyPoll 0#24 0#24 0#24 [] [3#32, 3#32, 3#32, 2#32] []
    s.phase = .busyPoll ∧ (∀ i, i < 3 → s.params.isBusy (s.statusAhead i) = true) ∧
      s.params.isBusy (s.statusAhead 3) = false := by decide

/-- V5 and V6: two reads that do not admit a word, then one that does. -/
theorem witness_BurstPollsEndAtFirstReadyRead :
    let s := inBurst .txPoll 1#24 0#24 1#24 [] [1#32, 1#32, 0#32] []
    let r := inBurst .rxPoll 0#24 2#24 2#24 [] [2#32, 2#32, 0#32] []
    (s.regs.rem = some 1#24 ∧ s.phase = .txPoll ∧ (∀ i, i < 2 → s.params.hasCapacity (s.statusAhead i) = false) ∧
      s.params.hasCapacity (s.statusAhead 2) = true) ∧
    (r.regs.rem = some 2#24 ∧ r.phase = .rxPoll ∧ (∀ i, i < 2 → r.params.hasData (r.statusAhead i) = false) ∧
      r.params.hasData (r.statusAhead 2) = true) := by decide

theorem witness_FaultedIsFinal : ((start [0x00#8] [] []).raise .ctrlFieldOverflow).phase = .faulted := by decide

/-- Of every statement about a step from a coherent state: a step that performs an event. -/
theorem witness_StepKeepsRegistersCoherent :
    (fillState [0x55#8]).coherent ∧ (fillState [0x55#8]).fault ≠ some .unwrittenRead ∧
      ∃ t, step (fillState [0x55#8]) = .next t ∧ t.phase = .txPush :=
  ⟨fillState_coherent _, by decide, _, rfl, by decide⟩

theorem witness_EveryRunStaysCoherent : (start [0x10#8] [0#32] []).coherent := start_coherent _ _ _

/-- Of every statement about one step of any state: a hold, an event, and a model fault. -/
theorem witness_OneEventPerStep :
    (∃ t, step (start [] [] []) = .next t ∧ t.trace = []) ∧
      (∃ t, step (inCmdPut none 5#24 1#24) = .next t ∧ t.trace = [.wrCmdFifo 0xA4#8]) ∧
      ∃ t, step (inCmdPut (some 4) 5#24 1#24) = .next t ∧ t.fault = some .cmdFifoOverrun :=
  ⟨⟨_, rfl, by decide⟩, ⟨_, rfl, by decide⟩, ⟨_, rfl, by decide⟩⟩

/-- R278: a state after one operation, about to write the control register of the next. -/
def betweenOperations : State := { inCtrl none 0#24 1#24 with trace := [.wrCtrl 3#3 0#24 0#24, .rdStatus 2#32, .put 0x06#8] }

theorem witness_OperationsAreSerialised :
    betweenOperations.serialised ∧ ∃ t, step betweenOperations = .next t ∧ t.phase = .rxPoll :=
  ⟨show refParams.isBusy 2#32 = false by decide, _, rfl, by decide⟩

/-- R41: a state after a poll that showed capacity, and one after a poll that showed data. -/
theorem witness_TransfersFollowPolls :
    ({ inWord .txPush 1#24 0#24 1#24 0x55#32 1 1 [] with trace := [.rdStatus 0#32, .get 0x55#8] } : State).polled ∧
      ({ inBurst .rxPop 0#24 2#24 2#24 [] [] [5#32] with trace := [.rdStatus 0#32] } : State).polled ∧
      ∃ t, step { inBurst .rxPop 0#24 2#24 2#24 [] [] [5#32] with trace := [.rdStatus 0#32] } = .next t ∧ t.phase = .rxEmit :=
  ⟨show refParams.hasCapacity 0#32 = true by decide, show refParams.hasData 0#32 = true by decide, _, rfl, by decide⟩

/-- A push and a pop, from coherent states. -/
theorem witness_DataFifoFollowsDirection :
    ((inWord .txPush 1#24 0#24 1#24 0x55#32 1 1 []).coherent ∧
      ∃ t, step (inWord .txPush 1#24 0#24 1#24 0x55#32 1 1 []) = .next t ∧ t.trace = [] ++ [.wrDataFifo 0x55#32]) ∧
    ((inBurst .rxPop 0#24 2#24 2#24 [] [] [5#32]).coherent ∧
      ∃ t, step (inBurst .rxPop 0#24 2#24 2#24 [] [] [5#32]) = .next t ∧ t.trace = [] ++ [.rdDataFifo 5#32]) :=
  ⟨⟨⟨by decide, 1#24, 1#24, 0x55#32, ⟨⟨rfl, rfl, rfl, rfl⟩, rfl, rfl, by decide, by decide⟩, rfl, rfl⟩, _, rfl, rfl⟩,
    ⟨by decide, 0#24, 2#24, 2#24, by decide, ⟨rfl, rfl, rfl, rfl⟩, rfl, rfl, by decide, by decide⟩, _, rfl, rfl⟩

theorem witness_NoOtherRegisterAccess :
    ∃ t, step (inCtrl none 0#24 1#24) = .next t ∧ t.trace = (inCtrl none 0#24 1#24).trace ++ [.wrCtrl 5#3 1#24 0#24] :=
  ⟨_, rfl, rfl⟩

/-- R64, R69: a command byte on the bus, at its 4-aligned address; the bits above it are any value. -/
theorem test_busAccess_cmdFifo (upper : BitVec 24) :
    (Event.wrCmdFifo 0xA4#8).busAccess refParams upper = some ⟨.cmdFifo, 8, .write, [upper ++ 0xA4#8]⟩ := rfl

theorem witness_BusAccessesAreAligned : ∀ r, 4 ∣ refParams.regAddr r := by
  intro r; cases r <;> decide

theorem witness_ResetPerformsNoEvent :
    (start [] [] []).tin = [] ∧ (start [0x13#8, 0x00#8] [] []).tin = 0x13#8 :: [0x00#8] := by decide

end Sys2Proof.Tests
end

