-- ==== Sys2Proof/Proofs/Scope.lean ====
section
/-! PROOFS of the statements about the step itself (spec/00_scope.md): a hold repeats for ever, and a step that neither holds
nor faults performs one event of its phase's kind. -/

namespace Sys2Proof.Machine

/-- A state that its own step answers is answered by a run of any length. -/
theorem runFor_of_hold {s : State} (h : step s = .next s) (n : Nat) : runFor n s = .next s := by
  induction n with
  | zero => rfl
  | succ n ih => rw [runFor_next n h, ih]

/-- R243: in `FAULTED` a step answers the same state. -/
theorem step_of_faulted {s : State} (h : s.phase = .faulted) : step s = .next s := by
  simp only [step, h]

/-! R21, read by the kind of event: the phases that perform it. -/

theorem Phase.performs_get_iff {p : Phase} {b : Byte} :
    p.performs (.get b) = true ↔ p ∈ [Phase.awaitOpcode, .arg, .cmdGet, .txFill] := by
  cases p <;> simp [Phase.performs]

theorem Phase.performs_put_iff {p : Phase} {b : Byte} :
    p.performs (.put b) = true ↔ p ∈ [Phase.reply, .rxEmit] := by
  cases p <;> simp [Phase.performs]

theorem Phase.performs_wrCtrl_iff {p : Phase} {m : BitVec 3} {burstLen cmdLen : U24} :
    p.performs (.wrCtrl m burstLen cmdLen) = true ↔ p = .spiCtrl := by
  cases p <;> simp [Phase.performs]

theorem Phase.performs_wrCmdFifo_iff {p : Phase} {b : Byte} :
    p.performs (.wrCmdFifo b) = true ↔ p = .cmdPut := by
  cases p <;> simp [Phase.performs]

theorem Phase.performs_wrDataFifo_iff {p : Phase} {w : Word} :
    p.performs (.wrDataFifo w) = true ↔ p = .txPush := by
  cases p <;> simp [Phase.performs]

theorem Phase.performs_rdStatus_iff {p : Phase} {v : Word} :
    p.performs (.rdStatus v) = true ↔ p ∈ [Phase.txPoll, .rxPoll, .busyPoll] := by
  cases p <;> simp [Phase.performs]

theorem Phase.performs_rdDataFifo_iff {p : Phase} {w : Word} :
    p.performs (.rdDataFifo w) = true ↔ p = .rxPop := by
  cases p <;> simp [Phase.performs]

/-- R7, R11: every effect of a step is a hold, a model fault, or one event that the phase of R21 performs. -/
theorem StepEffect.holds_or_faults_or_performs {s t : State} (h : StepEffect s t) :
    t = s ∨ (∃ f, t = s.raise f) ∨ ∃ e, s.phase.performs e = true ∧ t.trace = s.trace ++ [e] := by
  cases h with
  | hold => exact .inl rfl
  | fault f _ => exact .inr (.inl ⟨f, rfl⟩)
  | get b _ _ _ _ here _ => exact .inr (.inr ⟨.get b, Phase.performs_get_iff.mpr here, rfl⟩)
  | put b _ _ _ here _ => exact .inr (.inr ⟨.put b, Phase.performs_put_iff.mpr here, rfl⟩)
  | writeCtrl m burstLen cmdLen _ _ here _ =>
    exact .inr (.inr ⟨.wrCtrl m.field burstLen cmdLen, Phase.performs_wrCtrl_iff.mpr here, rfl⟩)
  | writeCmdFifo b _ _ here _ => exact .inr (.inr ⟨.wrCmdFifo b, Phase.performs_wrCmdFifo_iff.mpr here, rfl⟩)
  | writeDataFifo w _ _ here _ => exact .inr (.inr ⟨.wrDataFifo w, Phase.performs_wrDataFifo_iff.mpr here, rfl⟩)
  | readStatus _ _ here _ _ _ _ =>
    exact .inr (.inr ⟨.rdStatus s.nextStatus, Phase.performs_rdStatus_iff.mpr here, rfl⟩)
  | readData _ _ here _ => exact .inr (.inr ⟨.rdDataFifo s.nextData, Phase.performs_rdDataFifo_iff.mpr here, rfl⟩)

/-- Settles O44: the step out of `FAULTED` is a hold, and a hold repeats. -/
theorem faultedIsFinal : Obligations.FaultedIsFinal :=
  fun _ n hp => runFor_of_hold (step_of_faulted hp) n

/-- Settles O45, by the cases of what a step can do (`step_effect`). -/
theorem oneEventPerStep : Obligations.OneEventPerStep :=
  fun _ _ h => (step_effect h).holds_or_faults_or_performs

end Sys2Proof.Machine
end

/-! PROOFS of the statements about the state (spec/10_state.md): its registers stay coherent in every run, its transfers follow
their polls, and what a step does to the transport, the register file and the parameters. -/

namespace Sys2Proof

/-! ### The decoder and the parameters -/

/-- R213, D21: the programmer name is 16 bytes, however many characters it has. -/
theorem Params.length_pgmName (p : Params) : p.pgmName.length = 16 := by
  simp only [Params.pgmName, List.length_append, List.length_map, List.length_take, List.length_replicate]
  omega

/-- R92, R95: the three opcodes with arguments. -/
theorem opcode_of_fixedArgs_ne_zero {op : Byte} (h : fixedArgs op ≠ 0) : op = 0x12#8 ∨ op = 0x13#8 ∨ op = 0x15#8 := by
  rw [ne_eq, fixedArgs_eq_zero_iff] at h
  tauto

/-- R95, R122: an opcode and as many arguments as it takes are a whole command. -/
theorem decode_of_fixedArgs {op : Byte} {args : List Byte} (h : args.length = fixedArgs op) :
    ∃ i, decode (op :: args) = .ok (i, []) := by
  by_cases h0 : fixedArgs op = 0
  · obtain ⟨i, _, hd⟩ := decode_f0 h0 []
    rw [List.length_eq_zero_iff.mp (h.trans h0)]
    exact ⟨i, hd⟩
  · rcases opcode_of_fixedArgs_ne_zero h0 with rfl | rfl | rfl
    · obtain ⟨a, rfl⟩ := List.length_eq_one_iff.mp h
      exact ⟨_, decode_sBustype a []⟩
    · match args, h with
      | [c0, c1, c2, r0, r1, r2], _ => exact ⟨_, decode_oSpiop c0 c1 c2 r0 r1 r2 []⟩
    · obtain ⟨a, rfl⟩ := List.length_eq_one_iff.mp h
      exact ⟨_, decode_sPinState a []⟩

/-- R94, R95: the opcodes that are a whole command by themselves. -/
theorem decode_singleton {op : Byte} {i : Instr} :
    decode [op] = .ok (i, []) ↔ fixedArgs op = 0 ∧ decodeOpcode op = some i := by
  by_cases h0 : fixedArgs op = 0
  · obtain ⟨i', hi, hd⟩ := decode_f0 h0 []
    simp [h0, hi, hd]
  · rcases opcode_of_fixedArgs_ne_zero h0 with rfl | rfl | rfl <;> simp [decode, fixedArgs]

end Sys2Proof

namespace Sys2Proof.Machine

/-! ### Coherence: how it is built, and what it gives -/

/-- R243: outside `FAULTED` a coherent state has recorded no fault. -/
theorem State.coherent.fault_eq_none {s : State} (h : s.coherent) (hp : s.phase ≠ .faulted) : s.fault = none :=
  h.1.mpr hp

/-- R243: the fault clause of coherence, of a state outside `FAULTED`. -/
theorem fault_eq_none_iff_of_running {s : State} (hf : s.fault = none) (hp : s.phase ≠ .faulted) :
    s.fault = none ↔ s.phase ≠ .faulted :=
  ⟨fun _ => hp, fun _ => hf⟩

/-- R243: a raised fault asks nothing of the registers. -/
theorem State.coherent_raise (s : State) (f : FaultName) : (s.raise f).coherent :=
  ⟨by simp, trivial⟩

/-- R70: a status read leaves every register and the phase as they are. -/
theorem State.coherent.readStatus {s : State} (h : s.coherent) : s.readStatus.coherent := h

/-- R123: a queued reply of 1 to 33 bytes that leads back to the dispatch loop. -/
theorem State.coherent_queueReply {s : State} {r : List Byte} (hf : s.fault = none) (h0 : 0 < r.length)
    (h33 : r.length ≤ 33) : (s.queueReply r .awaitOpcode).coherent :=
  ⟨fault_eq_none_iff_of_running hf (by simp), ⟨r, rfl, h0, h33⟩, .inl rfl⟩

/-- R121, R122: every command's action leaves a coherent state that has recorded no fault. -/
theorem exec_coherent (i : Instr) {s : State} (hf : s.fault = none) :
    ∃ t, exec i s = .next t ∧ t.coherent ∧ t.fault = none := by
  have queues {r : List Byte} (h0 : 0 < r.length) (h33 : r.length ≤ 33) :
      ∃ t, Host.Outcome.next (s.queueReply r .awaitOpcode) = (.next t : Host.Outcome State Fault Refusal) ∧
        t.coherent ∧ t.fault = none :=
    ⟨_, rfl, State.coherent_queueReply hf h0 h33, hf⟩
  cases i
  case sBustype a0 =>
    simp only [exec, execSBustype]
    split
    · exact queues (by decide) (by decide)
    · exact queues (by decide) (by decide)
  case oSpiop cl rl =>
    exact ⟨_, rfl, ⟨fault_eq_none_iff_of_running hf (by simp), ⟨[ack], rfl, by decide, by decide⟩,
      .inr ⟨rfl, cl, rl, rfl, rfl, rfl, rfl⟩⟩, hf⟩
  case qPgmname =>
    exact queues (by simp) (by simp [Params.length_pgmName])
  all_goals exact queues (by decide) (by decide)

/-- The phase of a burst of read length `rl` with `rem` bytes left to move, between two data words (R165, R169, R172). -/
def pollPhase (rl rem : U24) : Phase :=
  if rem = 0#24 then .busyPoll else if rl = 0#24 then .txPoll else .rxPoll

/-- R169: in a transmit. -/
theorem pollPhase_tx (rem : U24) : pollPhase 0#24 rem = if rem = 0#24 then .busyPoll else .txPoll := by
  simp [pollPhase]

/-- R172: in a receive. -/
theorem pollPhase_rx {rl : U24} (h : rl ≠ 0#24) (rem : U24) :
    pollPhase rl rem = if rem = 0#24 then .busyPoll else .rxPoll := by
  simp [pollPhase, h]

/-- R165, R166: a burst starts with all its bytes left to move. -/
theorem burstPhase_eq_pollPhase (cl rl : U24) :
    burstPhase (burstMode rl) (burstLength cl rl) = pollPhase rl (burstLength cl rl) := by
  by_cases h : rl = 0#24
  · simp [h, burstPhase, burstMode, pollPhase_tx]
  · simp [h, burstPhase, burstMode, burstLength, pollPhase_rx]

/-- R175: between two data words the registers of the operation and the count of the bytes left are coherent. -/
theorem State.coherent_pollPhase {s : State} {cl rl rem : U24} (hf : s.fault = none) (ho : s.operation cl rl)
    (hc : s.regs.cmdRem = some 0#24) (hr : s.regs.rem = some rem) (hle : rem ≤ burstLength cl rl)
    (hp : s.phase = pollPhase rl rem) : s.coherent := by
  by_cases h0 : rem = 0#24
  · have hp : s.phase = .busyPoll := by simp [hp, pollPhase, h0]
    refine ⟨fault_eq_none_iff_of_running hf (by simp [hp]), ?_⟩
    rw [hp]
    exact ⟨cl, rl, ho, hc, h0 ▸ hr⟩
  · have hb : s.burst cl rl rem := ⟨ho, hc, hr, by bv_omega, hle⟩
    by_cases hl : rl = 0#24
    · have hp : s.phase = .txPoll := by simp [hp, pollPhase, h0, hl]
      refine ⟨fault_eq_none_iff_of_running hf (by simp [hp]), ?_⟩
      rw [hp]
      exact ⟨cl, rem, hl ▸ hb⟩
    · have hp : s.phase = .rxPoll := by simp [hp, pollPhase, h0, hl]
      refine ⟨fault_eq_none_iff_of_running hf (by simp [hp]), ?_⟩
      rw [hp]
      exact ⟨cl, rl, rem, hl, hb⟩

/-- R169, R172: counting a word off never counts below 0. -/
theorem remAfter_chunk_le (rem : U24) : remAfter rem (chunk rem) ≤ rem := by
  simp only [remAfter, chunk, BitVec.le_def, BitVec.toNat_sub, BitVec.toNat_ofNat]
  omega

/-- R29: a word is due only where a byte is left, so it has a first lane. -/
theorem chunk_pos {rem : U24} (h : 0#24 < rem) : 0 < chunk rem := by
  simp only [chunk]
  bv_omega

/-! ### A step from a coherent state -/

/-- R33: the step answers a next state, which is coherent and has not just recorded `UnwrittenRead`. -/
def State.stepsCoherently (s : State) : Prop :=
  ∃ t, step s = .next t ∧ t.coherent ∧ (t.fault = some .unwrittenRead → t = s)

/-- R61, R62: a step that holds. -/
theorem State.stepsCoherently.of_hold {s : State} (h : s.coherent) (hs : step s = .next s) : s.stepsCoherently :=
  ⟨s, hs, h, fun _ => rfl⟩

/-- R243: a step that raises a fault of an undefined case. -/
theorem State.stepsCoherently.of_raise {s : State} {f : FaultName} (hf : f ≠ .unwrittenRead)
    (hs : step s = .next (s.raise f)) : s.stepsCoherently :=
  ⟨_, hs, State.coherent_raise s f, fun e => absurd (Option.some.inj e) hf⟩

/-- A step to a coherent state that has recorded no fault. -/
theorem State.stepsCoherently.of_next {s t : State} (hs : step s = .next t) (ht : t.coherent) (hf : t.fault = none) :
    s.stepsCoherently :=
  ⟨t, hs, ht, fun e => by simp [hf] at e⟩

/-- R121, R122: a step that ends in a command's action. -/
theorem State.stepsCoherently.of_exec {s u : State} {i : Instr} (hs : step s = exec i u) (hf : u.fault = none) :
    s.stepsCoherently := by
  obtain ⟨t, ht, hc, hf⟩ := exec_coherent i hf
  exact .of_next (hs.trans ht) hc hf

section
variable {s : State}

/-- R120, R121: an opcode is a whole command, or leaves as many arguments due as it takes. -/
theorem stepsCoherently_awaitOpcode (h : s.coherent) (hp : s.phase = .awaitOpcode) : s.stepsCoherently := by
  have hf := h.fault_eq_none (by simp [hp])
  have hs : step s = runFetch (fetchOpcode s) := by simp only [step, hp]
  rcases fetchOpcode_cases s with ⟨_, h'⟩ | ⟨op, rest, _, ⟨_, i, _, h'⟩ | ⟨h0, h'⟩⟩ <;> rw [h'] at hs
  · exact .of_hold h hs
  · exact .of_exec hs hf
  · exact .of_next hs ⟨fault_eq_none_iff_of_running hf (by simp),
      op, [], fixedArgs op, rfl, rfl, rfl, by omega, by simp⟩ hf

/-- R122: the arguments taken and due stay as many as the opcode takes, so that the last one completes a command. -/
theorem stepsCoherently_arg (h : s.coherent) (hp : s.phase = .arg) : s.stepsCoherently := by
  have hf := h.fault_eq_none (by simp [hp])
  have hs : step s = runFetch (fetchArg s) := by simp only [step, hp]
  have hr := h.2
  rw [hp] at hr
  obtain ⟨op, args, k, ho, ha, hk, hpos, hlen⟩ := hr
  rcases fetchArg_cases s with ⟨_, h'⟩ | ⟨a, rest, _, ⟨op', args', m, ho', ha', hm, hact⟩ | ⟨h0, _⟩ | ⟨hn, _⟩⟩
  · exact .of_hold h (hs.trans h')
  · cases ho.symm.trans ho'
    cases ha.symm.trans ha'
    cases hk.symm.trans hm
    rcases hact with ⟨hm0, h'⟩ | ⟨_, i, _, h'⟩ | ⟨hm0, hd, _⟩
    · refine .of_next (hs.trans h') ⟨fault_eq_none_iff_of_running hf (by simp [hp]), ?_⟩ hf
      simp only [hp]
      exact ⟨op, args ++ [a], m, ho, rfl, rfl, by omega, by simp; omega⟩
    · exact .of_exec (hs.trans h') hf
    · obtain ⟨i, hi⟩ := decode_of_fixedArgs (op := op) (args := args ++ [a]) (by simp; omega)
      exact absurd hi (hd i)
  · cases hk.symm.trans h0
    omega
  · simp [ho, ha, hk] at hn

/-- R123: what is left of the reply, or the phase that `after` names. -/
theorem stepsCoherently_reply (h : s.coherent) (hp : s.phase = .reply) : s.stepsCoherently := by
  have hf := h.fault_eq_none (by simp [hp])
  have hs : step s = stepReply s := by simp only [step, hp]
  have hr := h.2
  rw [hp] at hr
  obtain ⟨⟨r, hreply, hpos, hlen⟩, hafter⟩ := hr
  rcases stepReply_cases s with ⟨h0, _⟩ | ⟨_, _, _, _, _, _, h'⟩ | ⟨b, rest, a, hr', ha', _, h'⟩ | ⟨hn, _⟩
  · cases hreply.symm.trans h0
    simp at hpos
  · exact .of_hold h (hs.trans h')
  · cases hreply.symm.trans hr'
    refine .of_next (hs.trans h') ?_ hf
    by_cases hrest : rest = []
    · rw [ha'] at hafter
      rcases hafter with hb | ⟨hb, hop⟩ <;> cases hb
      · simp only [hrest, if_true, After.toPhase]
        exact ⟨fault_eq_none_iff_of_running hf (by simp), trivial⟩
      · simp only [hrest, if_true, After.toPhase]
        exact ⟨fault_eq_none_iff_of_running hf (by simp), hop⟩
    · simp only [hrest, if_false]
      refine ⟨fault_eq_none_iff_of_running hf (by simp), ⟨rest, rfl, List.length_pos_iff.mpr hrest, ?_⟩, hafter⟩
      simp only [List.length_cons] at hlen
      omega
  · rcases hafter with hb | ⟨hb, _⟩ <;> simp [hreply, hb] at hn

/-- R165: the lengths and the direction were written by the command, and the counters start from them. -/
theorem stepsCoherently_spiCtrl (h : s.coherent) (hp : s.phase = .spiCtrl) : s.stepsCoherently := by
  have hf := h.fault_eq_none (by simp [hp])
  have hs : step s = .next (stepSpiCtrl s) := by simp only [step, hp]
  have hr := h.2
  rw [hp] at hr
  obtain ⟨cl, rl, hop⟩ := hr
  obtain ⟨hcl, hrl, hmode, hlen⟩ := id hop
  rcases stepSpiCtrl_cases s with ⟨mode', len', cl', hm', hl', hc', ⟨_, h'⟩ | ⟨_, h'⟩⟩ | ⟨hn, _⟩
  · exact .of_raise (by decide) (hs.trans (congrArg _ h'))
  · cases hmode.symm.trans hm'
    cases hlen.symm.trans hl'
    cases hcl.symm.trans hc'
    refine .of_next (hs.trans (congrArg _ h')) ?_ hf
    by_cases hc0 : cl = 0#24
    · refine State.coherent_pollPhase hf hop (congrArg some hc0) rfl (BitVec.le_refl _) ?_
      simp only [hc0, if_true, burstPhase_eq_pollPhase]
    · simp only [hc0, if_false]
      exact ⟨fault_eq_none_iff_of_running hf (by simp), cl, rl, cl, hop, rfl, by bv_omega, BitVec.le_refl _, rfl⟩
  · simp [hcl, hmode, hlen] at hn

/-- R166: the byte in transit is written. -/
theorem stepsCoherently_cmdGet (h : s.coherent) (hp : s.phase = .cmdGet) : s.stepsCoherently := by
  have hf := h.fault_eq_none (by simp [hp])
  have hs : step s = .next (stepCmdGet s) := by simp only [step, hp]
  have hr := h.2
  rw [hp] at hr
  obtain ⟨cl, rl, c, hop, hc, hpos, hle, hrem⟩ := hr
  rcases stepCmdGet_cases s with ⟨_, h'⟩ | ⟨b, rest, _, h'⟩ <;> rw [h'] at hs
  · exact .of_hold h hs
  · exact .of_next hs ⟨fault_eq_none_iff_of_running hf (by simp), cl, rl, c, b, hop, hc, hpos, hle, hrem, rfl⟩ hf

/-- R166: a byte is counted off, and after the last one the burst starts. -/
theorem stepsCoherently_cmdPut (h : s.coherent) (hp : s.phase = .cmdPut) : s.stepsCoherently := by
  have hf := h.fault_eq_none (by simp [hp])
  have hs : step s = .next (stepCmdPut s) := by simp only [step, hp]
  have hr := h.2
  rw [hp] at hr
  obtain ⟨cl, rl, c, b, hop, hc, hpos, hle, hrem, hb⟩ := hr
  obtain ⟨hcl, _, hmode, _⟩ := id hop
  rcases stepCmdPut_cases s with ⟨_, _, _, _, _, _, hc', hl', hm', hr', ⟨_, h'⟩ | ⟨_, h'⟩⟩ | ⟨hn, _⟩
  · exact .of_raise (by decide) (hs.trans (congrArg _ h'))
  · cases hc.symm.trans hc'
    cases hcl.symm.trans hl'
    cases hmode.symm.trans hm'
    cases hrem.symm.trans hr'
    refine .of_next (hs.trans (congrArg _ h')) ?_ hf
    by_cases hc1 : c - 1#24 = 0#24
    · refine State.coherent_pollPhase hf hop (congrArg some hc1) hrem (BitVec.le_refl _) ?_
      simp only [hc1, if_true, burstPhase_eq_pollPhase]
    · simp only [hc1, if_false]
      exact ⟨fault_eq_none_iff_of_running hf (by simp),
        cl, rl, c - 1#24, hop, rfl, by bv_omega, by bv_omega, hrem⟩
  · simp [hb, hc, hcl, hmode, hrem] at hn

/-- R167: capacity starts a word. -/
theorem stepsCoherently_txPoll (h : s.coherent) (hp : s.phase = .txPoll) : s.stepsCoherently := by
  have hf := h.fault_eq_none (by simp [hp])
  have hs : step s = .next (stepTxPoll s) := by simp only [step, hp]
  have hr := h.2
  rw [hp] at hr
  obtain ⟨cl, rem, hb⟩ := hr
  obtain ⟨_, _, hrem, hpos, _⟩ := id hb
  rcases stepTxPoll_cases s with ⟨_, hr', ⟨_, h'⟩ | ⟨_, h'⟩⟩ | ⟨hn, _⟩
  · cases hrem.symm.trans hr'
    exact .of_next (hs.trans (congrArg _ h')) ⟨fault_eq_none_iff_of_running hf (by simp),
      cl, rem, 0#32, 0, hb, rfl, rfl, chunk_pos hpos, rfl⟩ hf
  · exact .of_next (hs.trans (congrArg _ h')) h.readStatus hf
  · simp [hrem] at hn

/-- R168: a byte is packed, and a full word is to be pushed. -/
theorem stepsCoherently_txFill (h : s.coherent) (hp : s.phase = .txFill) : s.stepsCoherently := by
  have hf := h.fault_eq_none (by simp [hp])
  have hs : step s = .next (stepTxFill s) := by simp only [step, hp]
  have hr := h.2
  rw [hp] at hr
  obtain ⟨cl, rem, w, j, hb, hn, hj, hjn, hw⟩ := hr
  rcases stepTxFill_cases s with ⟨_, h'⟩ | ⟨b, rest, _, ⟨_, _, _, hw', hj', hn', h'⟩ | ⟨hnone, _⟩⟩
  · exact .of_hold h (hs.trans (congrArg _ h'))
  · cases hw.symm.trans hw'
    cases hj.symm.trans hj'
    cases hn.symm.trans hn'
    refine .of_next (hs.trans (congrArg _ h')) ?_ hf
    by_cases hlast : j + 1 = chunk rem
    · simp only [hlast, if_true]
      exact ⟨fault_eq_none_iff_of_running hf (by simp), cl, rem, orLane w j b, hb, hn, rfl⟩
    · simp only [hlast, if_false]
      exact ⟨fault_eq_none_iff_of_running hf (by simp), cl, rem, orLane w j b, j + 1, hb, hn, rfl, by omega, rfl⟩
  · simp [hw, hj, hn] at hnone

/-- R169: a word is counted off. -/
theorem stepsCoherently_txPush (h : s.coherent) (hp : s.phase = .txPush) : s.stepsCoherently := by
  have hf := h.fault_eq_none (by simp [hp])
  have hs : step s = .next (stepTxPush s) := by simp only [step, hp]
  have hr := h.2
  rw [hp] at hr
  obtain ⟨cl, rem, w, ⟨hop, hc, hrem, _, hle⟩, hn, hw⟩ := hr
  rcases stepTxPush_cases s with ⟨_, _, _, _, hr', hn', h'⟩ | ⟨hnone, _⟩
  · cases hrem.symm.trans hr'
    cases hn.symm.trans hn'
    exact .of_next (hs.trans (congrArg _ h'))
      (State.coherent_pollPhase hf hop hc rfl (BitVec.le_trans (remAfter_chunk_le rem) hle) (pollPhase_tx _).symm) hf
  · simp [hw, hrem, hn] at hnone

/-- R170: the registers stay as they are. -/
theorem stepsCoherently_rxPoll (h : s.coherent) (hp : s.phase = .rxPoll) : s.stepsCoherently := by
  have hf := h.fault_eq_none (by simp [hp])
  have hs : step s = .next (stepRxPoll s) := by simp only [step, hp]
  have hr := h.2
  rw [hp] at hr
  rcases stepRxPoll_cases s with ⟨_, h'⟩ | ⟨_, h'⟩ <;> rw [h'] at hs
  · exact .of_next hs ⟨fault_eq_none_iff_of_running hf (by simp), hr⟩ hf
  · exact .of_next hs h.readStatus hf

/-- R171: a word is popped. -/
theorem stepsCoherently_rxPop (h : s.coherent) (hp : s.phase = .rxPop) : s.stepsCoherently := by
  have hf := h.fault_eq_none (by simp [hp])
  have hs : step s = .next (stepRxPop s) := by simp only [step, hp]
  have hr := h.2
  rw [hp] at hr
  obtain ⟨cl, rl, rem, hrl, hb⟩ := hr
  obtain ⟨_, _, hrem, hpos, _⟩ := id hb
  rcases stepRxPop_cases s with ⟨_, hr', h'⟩ | ⟨hnone, _⟩
  · cases hrem.symm.trans hr'
    exact .of_next (hs.trans (congrArg _ h')) ⟨fault_eq_none_iff_of_running hf (by simp),
      cl, rl, rem, s.nextData, 0, hrl, hb, rfl, rfl, chunk_pos hpos, rfl⟩ hf
  · simp [hrem] at hnone

/-- R172: a lane is put, and after the last one the word is counted off. -/
theorem stepsCoherently_rxEmit (h : s.coherent) (hp : s.phase = .rxEmit) : s.stepsCoherently := by
  have hf := h.fault_eq_none (by simp [hp])
  have hs : step s = .next (stepRxEmit s) := by simp only [step, hp]
  have hr := h.2
  rw [hp] at hr
  obtain ⟨cl, rl, rem, w, j, hrl, hb, hn, hj, hjn, hw⟩ := hr
  obtain ⟨hop, hc, hrem, _, hle⟩ := id hb
  rcases stepRxEmit_cases s with ⟨_, _, _, _, hw', hj', hn', hr', ⟨_, h'⟩ | ⟨_, _, h'⟩ | ⟨_, hmore, h'⟩⟩ | ⟨hnone, _⟩
  · exact .of_hold h (hs.trans (congrArg _ h'))
  · cases hrem.symm.trans hr'
    cases hn.symm.trans hn'
    exact .of_next (hs.trans (congrArg _ h'))
      (State.coherent_pollPhase hf hop hc rfl (BitVec.le_trans (remAfter_chunk_le rem) hle) (pollPhase_rx hrl _).symm) hf
  · cases hj.symm.trans hj'
    cases hn.symm.trans hn'
    refine .of_next (hs.trans (congrArg _ h')) ⟨fault_eq_none_iff_of_running hf (by simp [hp]), ?_⟩ hf
    simp only [hp]
    exact ⟨cl, rl, rem, w, j + 1, hrl, hb, hn, rfl, by omega, hw⟩
  · simp [hw, hj, hn, hrem] at hnone

/-- R173: the registers stay as they are, and the dispatch loop asks nothing of them. -/
theorem stepsCoherently_busyPoll (h : s.coherent) (hp : s.phase = .busyPoll) : s.stepsCoherently := by
  have hf := h.fault_eq_none (by simp [hp])
  have hs : step s = .next (stepBusyPoll s) := by simp only [step, hp]
  rcases stepBusyPoll_cases s with ⟨_, h'⟩ | ⟨_, h'⟩ <;> rw [h'] at hs
  · exact .of_next hs h.readStatus hf
  · exact .of_next hs ⟨fault_eq_none_iff_of_running hf (by simp), trivial⟩ hf

/-- R33: every step from a coherent state answers a coherent next state and reads no unwritten register. -/
theorem State.coherent.stepsCoherently (h : s.coherent) : s.stepsCoherently := by
  cases hp : s.phase with
  | awaitOpcode => exact stepsCoherently_awaitOpcode h hp
  | arg => exact stepsCoherently_arg h hp
  | reply => exact stepsCoherently_reply h hp
  | spiCtrl => exact stepsCoherently_spiCtrl h hp
  | cmdGet => exact stepsCoherently_cmdGet h hp
  | cmdPut => exact stepsCoherently_cmdPut h hp
  | txPoll => exact stepsCoherently_txPoll h hp
  | txFill => exact stepsCoherently_txFill h hp
  | txPush => exact stepsCoherently_txPush h hp
  | rxPoll => exact stepsCoherently_rxPoll h hp
  | rxPop => exact stepsCoherently_rxPop h hp
  | rxEmit => exact stepsCoherently_rxEmit h hp
  | busyPoll => exact stepsCoherently_busyPoll h hp
  | faulted => exact .of_hold h (step_of_faulted hp)

/-- R20: coherence is of the engine state alone, which no action of the environment touches. -/
theorem State.coherent.env (h : s.coherent) (a : EnvAct) : (s.env a).coherent := by
  cases a <;> exact h

end

/-- Settles O47, by the case of each phase. -/
theorem stepKeepsRegistersCoherent : Obligations.StepKeepsRegistersCoherent := by
  intro s t h hs
  obtain ⟨u, hu, hc, _⟩ := h.stepsCoherently
  cases hs.symm.trans hu
  exact hc

/-- Settles O48. -/
theorem coherentStateNeverReadsUnwritten : Obligations.CoherentStateNeverReadsUnwritten := by
  intro s h hf
  obtain ⟨t, ht, _, hsame⟩ := h.stepsCoherently
  exact ⟨t, ht, fun e => hf (hsame e ▸ e)⟩

/-- Settles O49, by induction on the turns. -/
theorem everyRunStaysCoherent : Obligations.EveryRunStaysCoherent := by
  intro turns
  induction turns with
  | nil => exact fun s h => ⟨s, rfl, h, rfl⟩
  | cons turn turns ih =>
    intro s h
    cases turn with
    | env a =>
      obtain ⟨t, ht, hc, hq⟩ := ih (s.env a) (h.env a)
      exact ⟨t, ht, hc, by simpa using hq⟩
    | engine =>
      obtain ⟨u, hu, hcu, _⟩ := h.stepsCoherently
      obtain ⟨t, ht, hc, hq⟩ := ih u hcu
      exact ⟨t, by simpa only [runTurns, hu] using ht, hc, hq.trans (step_params hu)⟩

/-! ### The last register-file event -/

/-- R282: an event that accesses no register leaves the last poll the last. -/
theorem lastPoll_append_of_register_eq_none {q : Word → Bool} {tr : List Event} {e : Event} (he : e.register = none) :
    lastPoll q (tr ++ [e]) ↔ lastPoll q tr := by
  simp [lastPoll, registerEvents, he]

/-- R282: a status read is the last poll. -/
theorem lastPoll_append_rdStatus {q : Word → Bool} {tr : List Event} {v : Word} :
    lastPoll q (tr ++ [.rdStatus v]) ↔ q v = true := by
  simp [lastPoll, registerEvents, Event.register]

/-- R41, R282, by what a phase asks of the last poll. -/
theorem State.polled_iff {s : State} :
    s.polled ↔ (s.phase = .txFill ∨ s.phase = .txPush → lastPoll s.params.hasCapacity s.trace) ∧
      (s.phase = .rxPop → lastPoll s.params.hasData s.trace) := by
  unfold State.polled
  cases s.phase <;> simp

/-- R179: a word's filling is entered from the poll that precedes it, or goes on. -/
theorem Phase.txFill_mem_successors {p : Phase} : .txFill ∈ p.successors ↔ p = .txPoll ∨ p = .txFill := by
  cases p <;> simp [Phase.successors]

/-- R179: the push of a word follows its filling. -/
theorem Phase.txPush_mem_successors {p : Phase} : .txPush ∈ p.successors ↔ p = .txFill := by
  cases p <;> simp [Phase.successors]

/-- R179: the pop of a word follows a poll. -/
theorem Phase.rxPop_mem_successors {p : Phase} : .rxPop ∈ p.successors ↔ p = .rxPoll := by
  cases p <;> simp [Phase.successors]

/-- R179: after any phase but the burst polls and `TX_FILL`, nothing is asked of the last poll. -/
theorem State.polled_of_successor {t : State} {p : Phase} (next : t.phase ∈ p.successors)
    (hp : p ∉ [Phase.txPoll, .txFill, .rxPoll]) : t.polled := by
  refine State.polled_iff.mpr ⟨fun ht => ?_, fun ht => ?_⟩
  · rcases ht with ht | ht <;> rw [ht] at next
    · rcases Phase.txFill_mem_successors.mp next with rfl | rfl <;> simp at hp
    · cases Phase.txPush_mem_successors.mp next
      simp at hp
  · rw [ht] at next
    cases Phase.rxPop_mem_successors.mp next
    simp at hp

/-- Settles O51: a poll that passes its test is the last register-file event, and `TX_FILL` makes none. -/
theorem transfersFollowPolls : Obligations.TransfersFollowPolls := by
  intro s t h hs
  cases step_effect hs with
  | hold => exact h
  | fault f _ => exact trivial
  | get b rest regs p hin here next =>
    by_cases hf : s.phase = .txFill
    · have hl := (State.polled_iff.mp h).1 (.inl hf)
      refine State.polled_iff.mpr ⟨fun _ => (lastPoll_append_of_register_eq_none rfl).mpr hl, fun ht => ?_⟩
      rw [show p = .rxPop from ht, Phase.rxPop_mem_successors, hf] at next
      cases next
    · refine State.polled_of_successor next fun hp => ?_
      grind
  | put b regs p _ here next =>
    refine State.polled_of_successor next fun hp => ?_
    grind
  | writeCtrl m burstLen cmdLen regs p here next => exact State.polled_of_successor next (by simp [here])
  | writeCmdFifo b regs p here next => exact State.polled_of_successor next (by simp [here])
  | writeDataFifo w regs p here next => exact State.polled_of_successor next (by simp [here])
  | readStatus regs p here next capacity data idle =>
    refine State.polled_iff.mpr ⟨fun ht => ?_, fun ht => lastPoll_append_rdStatus.mpr (data ht)⟩
    rcases ht with ht | ht
    · exact lastPoll_append_rdStatus.mpr (capacity ht)
    · rw [show p = .txPush from ht, Phase.txPush_mem_successors] at next
      simp [next] at here
  | readData regs p here next => exact State.polled_of_successor next (by simp [here])

/-! ### The event of a step -/

/-- R7, R21: a step that adds an event to the trace is one whose phase performs that event. -/
theorem performs_of_step {s t : State} {e : Event} (hs : step s = .next t) (he : t.trace = s.trace ++ [e]) :
    s.phase.performs e = true := by
  rcases (step_effect hs).holds_or_faults_or_performs with rfl | ⟨f, rfl⟩ | ⟨e', hp, ht⟩
  · simp at he
  · simp at he
  · rw [ht] at he
    obtain rfl : e' = e := by simpa using he
    exact hp

/-- R65: an event a phase performs is the phase's one access of the table, or none. -/
theorem Phase.register_of_performs : ∀ {p : Phase} {e : Event}, p.performs e = true → e.register = p.access
  | .awaitOpcode, .get _, _ => rfl
  | .arg, .get _, _ => rfl
  | .reply, .put _, _ => rfl
  | .spiCtrl, .wrCtrl _ _ _, _ => rfl
  | .cmdGet, .get _, _ => rfl
  | .cmdPut, .wrCmdFifo _, _ => rfl
  | .txPoll, .rdStatus _, _ => rfl
  | .txFill, .get _, _ => rfl
  | .txPush, .wrDataFifo _, _ => rfl
  | .rxPoll, .rdStatus _, _ => rfl
  | .rxPop, .rdDataFifo _, _ => rfl
  | .rxEmit, .put _, _ => rfl
  | .busyPoll, .rdStatus _, _ => rfl

/-- R37: a control write carries one of the two modes. -/
theorem wrCtrl_mode_of_step {s t : State} {m : BitVec 3} {burstLen cmdLen : U24} (hs : step s = .next t)
    (he : t.trace = s.trace ++ [.wrCtrl m burstLen cmdLen]) : m = 3#3 ∨ m = 5#3 := by
  cases step_effect hs with
  | writeCtrl mode _ _ _ _ _ _ =>
    obtain ⟨rfl, _⟩ : mode.field = m ∧ _ := by simpa using he
    cases mode <;> simp [Mode.field]
  | _ => simp at he

/-- R42: no step changes the fields of `STATUS`. -/
theorem step_spi_status {s t : State} (hs : step s = .next t) : t.spi.status = s.spi.status := by
  cases step_effect hs <;> simp

/-- R65: the fields of `CTRL` change only in `SPI_CTRL`. -/
theorem step_spi_ctrl {s t : State} (hs : step s = .next t) (hp : s.phase ≠ .spiCtrl) : t.spi.ctrl = s.spi.ctrl := by
  cases step_effect hs with
  | writeCtrl _ _ _ _ _ here _ => exact absurd here hp
  | _ => simp

/-- R41, R175: a coherent state about to push a data word is in transmit mode. -/
theorem State.coherent.mode_of_txPush {s : State} (h : s.coherent) (hp : s.phase = .txPush) :
    s.regs.mode = some .tx := by
  have hr := h.2
  rw [hp] at hr
  obtain ⟨cl, rem, w, ⟨⟨_, _, hmode, _⟩, _⟩, _⟩ := hr
  simpa [burstMode] using hmode

/-- R41, R175: a coherent state about to pop a data word is in receive mode. -/
theorem State.coherent.mode_of_rxPop {s : State} (h : s.coherent) (hp : s.phase = .rxPop) :
    s.regs.mode = some .rx := by
  have hr := h.2
  rw [hp] at hr
  obtain ⟨cl, rl, rem, hrl, ⟨_, _, hmode, _⟩, _⟩ := hr
  simpa [burstMode, hrl] using hmode

/-- Settles O52: the phase of the event says the mode. -/
theorem dataFifoFollowsDirection : Obligations.DataFifoFollowsDirection := by
  intro s t e h hs he
  have hp := performs_of_step hs he
  refine ⟨fun w hw => ?_, fun w hw => ?_⟩ <;> subst hw
  · exact h.mode_of_txPush (Phase.performs_wrDataFifo_iff.mp hp)
  · exact h.mode_of_rxPop (Phase.performs_rdDataFifo_iff.mp hp)

/-- Settles O53. -/
theorem noOtherRegisterAccess : Obligations.NoOtherRegisterAccess := fun _ _ hs =>
  ⟨fun _ he => ⟨performs_of_step hs he, Phase.register_of_performs (performs_of_step hs he),
    fun _ _ _ hw => wrCtrl_mode_of_step hs (hw ▸ he)⟩, step_spi_status hs, step_spi_ctrl hs⟩

/-- Settles O54: a step that puts a byte appends it to both, and any other changes neither. -/
theorem transportConservesBytes : Obligations.TransportConservesBytes := by
  intro s t hs
  refine ⟨step_takenBytes hs, ?_⟩
  cases step_effect hs with
  | put b _ _ _ _ _ => exact ⟨[b], rfl, by simp [givenBytes]⟩
  | _ => exact ⟨[], by simp, by simp [givenBytes]⟩

/-- R40: the command FIFO grows by what a step pushes into it. -/
theorem step_cmdFifo {s t : State} (hs : step s = .next t) :
    ∃ bs, t.spi.cmdFifo = s.spi.cmdFifo ++ bs ∧ pushedBytes t.trace = pushedBytes s.trace ++ bs := by
  cases step_effect hs with
  | writeCmdFifo b _ _ _ _ => exact ⟨[b], rfl, by simp [pushedBytes]⟩
  | _ => exact ⟨[], by simp, by simp [pushedBytes]⟩

/-- R70: the transmit side of the data FIFO grows by what a step pushes into it. -/
theorem step_txFifo {s t : State} (hs : step s = .next t) :
    ∃ ws, t.spi.txFifo = s.spi.txFifo ++ ws ∧ pushedWords t.trace = pushedWords s.trace ++ ws := by
  cases step_effect hs with
  | writeDataFifo w _ _ _ _ => exact ⟨[w], rfl, by simp [pushedWords]⟩
  | _ => exact ⟨[], by simp, by simp [pushedWords]⟩

/-- Settles O55. -/
theorem pushesReachTheFifos : Obligations.PushesReachTheFifos :=
  fun _ _ hs => ⟨step_cmdFifo hs, step_txFifo hs⟩

/-! ### Fetching -/

/-- R120, R121: the step that takes an opcode of a command with arguments. -/
theorem step_opcode_with_args {s : State} {op : Byte} {rest : List Byte} (hp : s.phase = .awaitOpcode)
    (ht : s.tin = op :: rest) (h0 : fixedArgs op ≠ 0) :
    step s = .next { s with
      tin := rest
      trace := s.trace ++ [.get op]
      regs := { Regs.unwritten with op := some op, args := some [], argc := some (fixedArgs op) }
      phase := .arg } := by
  have hs : step s = runFetch (fetchOpcode s) := by simp only [step, hp]
  rcases fetchOpcode_cases s with ⟨hn, _⟩ | ⟨op', rest', ht', hact⟩
  · simp [ht] at hn
  · cases ht.symm.trans ht'
    rcases hact with ⟨h0', _⟩ | ⟨_, h'⟩
    · exact absurd h0' h0
    · exact hs.trans h'

/-- R121: the step that takes an opcode that is a whole command. -/
theorem step_opcode_whole {s : State} {op : Byte} {rest : List Byte} {i : Instr} (hp : s.phase = .awaitOpcode)
    (ht : s.tin = op :: rest) (hd : decode [op] = .ok (i, [])) :
    step s = exec i { s with
      tin := rest
      trace := s.trace ++ [.get op]
      regs := { Regs.unwritten with op := some op } } := by
  obtain ⟨h0, hi⟩ := decode_singleton.mp hd
  have hs : step s = runFetch (fetchOpcode s) := by simp only [step, hp]
  rcases fetchOpcode_cases s with ⟨hn, _⟩ | ⟨op', rest', ht', hact⟩
  · simp [ht] at hn
  · cases ht.symm.trans ht'
    rcases hact with ⟨_, i', hi', h'⟩ | ⟨h0', _⟩
    · cases hi.symm.trans hi'
      exact hs.trans h'
    · exact absurd h0 h0'

/-- R122: the step that takes the last argument of a command. -/
theorem step_last_arg {s : State} {op a : Byte} {args rest : List Byte} {i : Instr} (hp : s.phase = .arg)
    (ho : s.regs.op = some op) (ha : s.regs.args = some args) (hc : s.regs.argc = some 1) (ht : s.tin = a :: rest)
    (hd : decode (op :: (args ++ [a])) = .ok (i, [])) :
    step s = exec i { s with
      tin := rest
      trace := s.trace ++ [.get a]
      regs := { s.regs with args := some (args ++ [a]), argc := some 0 } } := by
  have hs : step s = runFetch (fetchArg s) := by simp only [step, hp]
  rcases fetchArg_cases s with ⟨hn, _⟩ | ⟨a', rest', ht', ⟨op', args', m, ho', ha', hm, hact⟩ | ⟨h0, _⟩ | ⟨hn, _⟩⟩
  · simp [ht] at hn
  · cases ht.symm.trans ht'
    cases ho.symm.trans ho'
    cases ha.symm.trans ha'
    cases hc.symm.trans hm
    rcases hact with ⟨hne, _⟩ | ⟨_, i', hi', h'⟩ | ⟨_, hnone, _⟩
    · exact absurd rfl hne
    · cases hd.symm.trans hi'
      exact hs.trans h'
    · exact absurd hd (hnone i)
  · simp [hc] at h0
  · simp [ho, ha, hc] at hn

/-- Settles O18. -/
theorem stepRunsDecodedCommand : Obligations.StepRunsDecodedCommand :=
  ⟨fun _ _ _ _ hp ht hd => step_opcode_whole hp ht hd,
    fun _ _ _ _ _ _ hp ho ha hc ht hd => step_last_arg hp ho ha hc ht hd⟩

/-- Settles O19: whichever way the opcode is fetched, the registers it leaves are written from `Regs.unwritten`. -/
theorem registersDoNotCarryOver : Obligations.RegistersDoNotCarryOver := by
  intro s r hp hne
  obtain ⟨op, rest, ht⟩ := List.exists_cons_of_ne_nil hne
  by_cases h0 : fixedArgs op = 0
  · obtain ⟨i, _, hd⟩ := decode_f0 h0 []
    rw [step_opcode_whole hp ht hd, step_opcode_whole (s := { s with regs := r }) hp ht hd]
  · rw [step_opcode_with_args hp ht h0, step_opcode_with_args (s := { s with regs := r }) hp ht h0]

/-- R123: the step that puts the last byte of a reply. -/
theorem step_last_reply {s : State} {b : Byte} {a : After} (hp : s.phase = .reply) (hr : s.regs.reply = some [b])
    (ha : s.regs.after = some a) (hy : s.ready = true) :
    step s = .next { s with
      tout := s.tout ++ [b]
      trace := s.trace ++ [.put b]
      regs := { s.regs with reply := some [] }
      phase := a.toPhase } := by
  have hs : step s = stepReply s := by simp only [step, hp]
  rcases stepReply_cases s with ⟨h0, _⟩ | ⟨_, _, _, _, _, hn, _⟩ | ⟨b', rest, a', hr', ha', _, h'⟩ | ⟨hn, _⟩
  · simp [hr] at h0
  · simp [hy] at hn
  · cases hr.symm.trans hr'
    cases ha.symm.trans ha'
    simpa using hs.trans h'
  · simp [hr, ha] at hn

/-- R128: `S_BUSTYPE` queues one byte, whichever it is. -/
theorem exec_sBustype (a0 : Byte) (s : State) :
    exec (.sBustype a0) s = .next (s.queueReply [if a0 = 0x08#8 then 0x06#8 else 0x15#8] .awaitOpcode) := by
  by_cases h : a0 = 0x08#8
  · simp [exec, execSBustype, h, busSpi, ack]
  · simp [exec, execSBustype, h, busSpi, nak, State.protocolError]

/-- Settles O22, by its three steps. -/
theorem setBustypeIsServed : Obligations.SetBustypeIsServed := by
  intro s a0 rest hp hy ht
  have hopcode := step_opcode_with_args hp ht (by decide)
  have hrun := calc
    runFor 3 s = runFor 2 _ := runFor_next 2 hopcode
    _ = runFor 1 _ := runFor_next 1 ((step_last_arg (op := 0x12#8) (args := []) rfl rfl rfl rfl rfl
      (decode_sBustype a0 [])).trans (exec_sBustype a0 _))
    _ = runFor 0 _ := runFor_next 0 (step_last_reply rfl rfl rfl hy)
  refine ⟨_, hrun, rfl, rfl, by simp, rfl, rfl, rfl, hy, rfl,
    fun hne r => registersDoNotCarryOver _ r rfl hne⟩

/-! ### Register reads -/

/-- R167: the step of `TX_POLL`, whatever the status read shows. -/
theorem step_txPoll {s : State} {rem : U24} (hp : s.phase = .txPoll) (hr : s.regs.rem = some rem) :
    step s = .next { s.readStatus with
      regs :=
        if (s.params.decodeStatus s.nextStatus).txLevel < s.params.txHwm then
          { s.regs with n := some (min 4 rem.toNat), j := some 0, word := some 0#32 }
        else s.regs
      phase := if (s.params.decodeStatus s.nextStatus).txLevel < s.params.txHwm then .txFill else .txPoll } := by
  have hs : step s = .next (stepTxPoll s) := by simp only [step, hp]
  rcases stepTxPoll_cases s with ⟨_, hr', ⟨hc, h'⟩ | ⟨hc, h'⟩⟩ | ⟨hn, _⟩
  · cases hr.symm.trans hr'
    have hc : (s.params.decodeStatus s.nextStatus).txLevel < s.params.txHwm := of_decide_eq_true hc
    rw [hs, h', if_pos hc, if_pos hc]
    rfl
  · have hc : ¬ (s.params.decodeStatus s.nextStatus).txLevel < s.params.txHwm := of_decide_eq_false hc
    rw [hs, h', if_neg hc, if_neg hc, ← hp]
    rfl
  · simp [hr] at hn

/-- R170: the step of `RX_POLL`, whatever the status read shows. -/
theorem step_rxPoll {s : State} (hp : s.phase = .rxPoll) :
    step s = .next { s.readStatus with
      phase := if (s.params.decodeStatus s.nextStatus).rxLevel ≠ 0 then .rxPop else .rxPoll } := by
  have hs : step s = .next (stepRxPoll s) := by simp only [step, hp]
  rcases stepRxPoll_cases s with ⟨hd, h'⟩ | ⟨hd, h'⟩
  · have hd : (s.params.decodeStatus s.nextStatus).rxLevel ≠ 0 := by simpa [Params.hasData] using hd
    rw [hs, h', if_pos hd]
  · have hd : ¬ (s.params.decodeStatus s.nextStatus).rxLevel ≠ 0 := by simpa [Params.hasData] using hd
    rw [hs, h', if_neg hd, ← hp]
    rfl

/-- R171: the step of `RX_POP`, whatever the data read returns. -/
theorem step_rxPop {s : State} {rem : U24} (hp : s.phase = .rxPop) (hr : s.regs.rem = some rem) :
    step s = .next { s.readData with
      regs := { s.regs with word := some s.nextData, n := some (min 4 rem.toNat), j := some 0 }
      phase := .rxEmit } := by
  have hs : step s = .next (stepRxPop s) := by simp only [step, hp]
  rcases stepRxPop_cases s with ⟨_, hr', h'⟩ | ⟨hn, _⟩
  · cases hr.symm.trans hr'
    exact hs.trans (congrArg _ h')
  · simp [hr] at hn

/-- R173: the step of `BUSY_POLL`, whatever the status read shows. -/
theorem step_busyPoll {s : State} (hp : s.phase = .busyPoll) :
    step s = .next { s.readStatus with
      phase := if (s.params.decodeStatus s.nextStatus).busy then .busyPoll else .awaitOpcode } := by
  have hs : step s = .next (stepBusyPoll s) := by simp only [step, hp]
  rcases stepBusyPoll_cases s with ⟨hb, h'⟩ | ⟨hb, h'⟩
  · have hb : (s.params.decodeStatus s.nextStatus).busy = true := hb
    rw [hs, h', if_pos hb, ← hp]
    rfl
  · have hb : (s.params.decodeStatus s.nextStatus).busy = false := hb
    rw [hs, h', hb]
    rfl

/-- Settles O26: the step of `TX_POLL` for the status that the SPI master scripts. -/
theorem transmitPoll : Obligations.TransmitPoll := by
  intro s rem v vs hp hr hv
  obtain ⟨hnext, hread⟩ := State.readStatus_scripted hv
  rw [step_txPoll hp hr, hnext, hread]

/-- Settles O33: the steps of the four reading phases for a free value. -/
theorem unscriptedReadsTakeFreeValues : Obligations.UnscriptedReadsTakeFreeValues := by
  refine ⟨fun s hp hv => ?_, fun s rem hp hr hv => ?_, fun s hp hv => ?_, fun s rem hp hr hv => ?_⟩
  · obtain ⟨hnext, hread⟩ := State.readStatus_free hv
    rw [step_busyPoll hp, hnext, hread]
  · obtain ⟨hnext, hread⟩ := State.readStatus_free hv
    rw [step_txPoll hp hr, hnext, hread]
  · obtain ⟨hnext, hread⟩ := State.readStatus_free hv
    rw [step_rxPoll hp, hnext, hread]
  · obtain ⟨hnext, hread⟩ := State.readData_free hv
    rw [step_rxPop hp hr, hnext, hread]

/-! ### Constants, reset and the raw form of events -/

/-- Settles O56. -/
theorem constantsNeverChange : Obligations.ConstantsNeverChange :=
  ⟨⟨rfl, rfl, rfl, rfl, rfl, rfl, rfl, rfl⟩,
    fun s => ⟨fun _ hs => step_params hs, fun a => s.env_params a, s.resetEngine_params⟩⟩

/-- R270: the engine after a reset is in a state of all three invariants: `AWAIT_OPCODE` asks nothing of the registers, no
fault is recorded, and a run without events has accessed no register. -/
theorem State.resetEngine_invariants (s : State) :
    s.resetEngine.coherent ∧ s.resetEngine.serialised ∧ s.resetEngine.polled :=
  ⟨⟨fault_eq_none_iff_of_running rfl (by simp), trivial⟩, trivial, trivial⟩

/-- R45: the state after reset is one that resetting the engine gives. -/
theorem State.resetEngine_reset : State.reset.resetEngine = State.reset := rfl

/-- Settles O59. -/
theorem invariantsHoldAtReset : Obligations.InvariantsHoldAtReset :=
  ⟨State.resetEngine_reset ▸ State.reset.resetEngine_invariants, State.resetEngine_invariants⟩

/-- R36, R69: register addresses are 4-aligned. -/
theorem four_dvd_regAddr (p : Params) (r : SpiReg) : 4 ∣ p.regAddr r := by
  cases r <;> exact Nat.dvd_mul_right _ _

/-- R36, D29: every 4-aligned map of the registers is one of the parameters'. -/
theorem exists_regIndices (p : Params) {addr : SpiReg → Nat} (h : ∀ r, 4 ∣ addr r) :
    ∃ q : RegIndices, ∀ r, ({ p with regIndices := q } : Params).regAddr r = addr r := by
  refine ⟨⟨addr .ctrl / 4, addr .status / 4, addr .cmdFifo / 4, addr .dataFifo / 4⟩, fun r => ?_⟩
  cases r <;> exact Nat.mul_div_cancel' (h _)

/-- Settles O60. -/
theorem busAccessesAreAligned : Obligations.BusAccessesAreAligned := fun p upper =>
  ⟨fun _ _ _ => rfl, fun b => ⟨upper ++ b, rfl, BitVec.extractLsb'_append_eq_right,
    BitVec.extractLsb'_append_eq_left⟩, fun _ => rfl,
    fun _ => rfl, fun _ => rfl, fun _ => ⟨rfl, rfl⟩, four_dvd_regAddr p, fun _ => exists_regIndices p⟩

end Sys2Proof.Machine

/-! PROOFS of the statements about memory and the transport (spec/20_memory.md): how bytes are packed into data words, what
`Get` and `Put` do and how long they hold, the steps of the reply serializer and of the word phases, and that a run whose
environment is live serves every frame. -/

namespace Sys2Proof.Machine

/-! ### The lanes of a data word -/

/-- R67: a word is determined by its four lanes. -/
theorem eq_of_lane_eq {v w : Word} (h : ∀ k < 4, lane v k = lane w k) : v = w := by
  refine BitVec.eq_of_getLsbD_eq fun i hi => ?_
  have hbit := congrArg (·.getLsbD (i % 8)) (h (i / 8) (by omega))
  simpa [lane, Nat.mod_lt, Nat.div_add_mod] using hbit

/-- R67: the byte packed last is lane 0. -/
theorem lane_zero_pack (b : Byte) (w : Word) : lane (b.setWidth 32 ||| w <<< 8) 0 = b := by
  refine BitVec.eq_of_getLsbD_eq fun i hi => ?_
  simp [lane, hi]
  omega

/-- R67: packing a byte moves every lane up by one. -/
theorem lane_succ_pack (b : Byte) (w : Word) {k : Nat} (hk : k + 1 < 4) :
    lane (b.setWidth 32 ||| w <<< 8) (k + 1) = lane w k := by
  refine BitVec.eq_of_getLsbD_eq fun i hi => ?_
  have hhigh : b.getLsbD (8 * (k + 1) + i) = false := BitVec.getLsbD_of_ge _ _ (by omega)
  have hin : 8 * (k + 1) + i < 32 := by omega
  have hshift : 8 * (k + 1) + i - 8 = 8 * k + i := by omega
  have hbyte : ¬ 8 * (k + 1) + i < 8 := by omega
  simp [lane, hi, hhigh, hin, hshift, hbyte, BitVec.getLsbD_eq_getElem (show 8 * k + i < 32 by omega)]

/-- R67, R168: lane `k` of a packed chunk is its byte `k`, and 0 where it has none. -/
theorem lane_packWord (bs : List Byte) {k : Nat} (hk : k < 4) : lane (packWord bs) k = bs.getD k 0#8 := by
  induction bs generalizing k with
  | nil => simp [packWord, lane]
  | cons b bs ih =>
    cases k with
    | zero => exact lane_zero_pack b _
    | succ k => exact (lane_succ_pack b _ hk).trans (ih (by omega))

/-- R67: the lanes of a word, lane 0 first. -/
theorem lanes_eq_map (w : Word) : lanes w = (List.range 4).map (lane w) := rfl

/-- R67: the bytes of a chunk are read back from the first lanes. -/
theorem take_lanes_packWord {bs : List Byte} (h : bs.length ≤ 4) : (lanes (packWord bs)).take bs.length = bs := by
  refine List.ext_getElem (by simpa [lanes] using h) fun k _ hk => ?_
  have hlane := lane_packWord bs (show k < 4 by omega)
  simpa [lanes_eq_map, hk] using hlane

/-- R67: the lanes of a word pack back to it. -/
theorem packWord_lanes (w : Word) : packWord (lanes w) = w :=
  eq_of_lane_eq fun k hk => (lane_packWord (lanes w) hk).trans (match k, hk with
    | 0, _ | 1, _ | 2, _ | 3, _ => rfl)

/-- R67, R168: putting the bytes of a chunk into successive lanes adds the packed chunk to the word. -/
theorem foldl_orLane (bs : List Byte) (w : Word) (k : Nat) :
    (bs.zipIdx k).foldl (fun w p => orLane w p.2 p.1) w = w ||| packWord bs <<< (8 * k) := by
  induction bs generalizing w k with
  | nil => simp [packWord]
  | cons b bs ih =>
    have hshift : packWord bs <<< (8 * (k + 1)) = packWord bs <<< 8 <<< (8 * k) := by
      rw [← BitVec.shiftLeft_add, Nat.mul_succ, Nat.add_comm]
    rw [List.zipIdx_cons, List.foldl_cons, ih, hshift, orLane, packWord, BitVec.shiftLeft_or_distrib, BitVec.or_assoc]

/-- R168: a chunk packed lane by lane into the empty word is its word. -/
theorem foldl_orLane_zero (bs : List Byte) : bs.zipIdx.foldl (fun w p => orLane w p.2 p.1) 0#32 = packWord bs := by
  rw [foldl_orLane]
  simp

/-- R67, written out for four bytes. -/
theorem packWord_four (b0 b1 b2 b3 : Byte) : packWord [b0, b1, b2, b3] =
    b0.setWidth 32 ||| b1.setWidth 32 <<< 8 ||| b2.setWidth 32 <<< 16 ||| b3.setWidth 32 <<< 24 := by
  simp [packWord, BitVec.shiftLeft_or_distrib, ← BitVec.shiftLeft_add, BitVec.or_assoc]

/-- Settles O34. -/
theorem packingRoundTrip : Obligations.PackingRoundTrip := by
  refine ⟨fun b0 b1 b2 b3 => ?_, fun bs h => ⟨foldl_orLane_zero bs, take_lanes_packWord h⟩,
    fun w => ⟨packWord_lanes w, rfl⟩⟩
  rw [← packWord_four]
  exact ⟨foldl_orLane_zero [b0, b1, b2, b3], take_lanes_packWord (bs := [b0, b1, b2, b3]) (Nat.le_refl 4)⟩

/-! ### The steps that take or put a byte -/

section
variable {s : State}

/-- R61: a phase that performs a `Get` holds while `tin` is empty, whatever its registers hold. -/
theorem step_of_tin_nil (ht : s.tin = []) (hp : s.phase ∈ [Phase.awaitOpcode, .arg, .cmdGet, .txFill]) :
    step s = .next s := by
  have hb : s.getByte = none := State.getByte_eq_none.mpr ht
  simp only [List.mem_cons, List.not_mem_nil, or_false] at hp
  rcases hp with hp | hp | hp | hp
  · simp only [step, hp, fetchOpcode, hb, runFetch]
  · simp only [step, hp, fetchArg, hb, runFetch]
  · simp only [step, hp, stepCmdGet, hb]
  · simp only [step, hp, stepTxFill, hb]

/-- R122: the step that takes an argument with more to come. -/
theorem step_arg_more {op a : Byte} {args rest : List Byte} {m : Nat} (hp : s.phase = .arg)
    (ho : s.regs.op = some op) (ha : s.regs.args = some args) (hc : s.regs.argc = some (m + 1)) (hm : m ≠ 0)
    (ht : s.tin = a :: rest) :
    step s = .next { s with
      tin := rest
      trace := s.trace ++ [.get a]
      regs := { s.regs with args := some (args ++ [a]), argc := some m } } := by
  have hs : step s = runFetch (fetchArg s) := by simp only [step, hp]
  rcases fetchArg_cases s with ⟨hn, _⟩ | ⟨a', rest', ht', ⟨op', args', m', ho', ha', hm', hact⟩ | ⟨h0, _⟩ | ⟨hn, _⟩⟩
  · simp [ht] at hn
  · cases ht.symm.trans ht'
    cases ha.symm.trans ha'
    cases hc.symm.trans hm'
    rcases hact with ⟨_, h'⟩ | ⟨h0, _⟩ | ⟨h0, _⟩
    · exact hs.trans h'
    · exact absurd h0 hm
    · exact absurd h0 hm
  · simp [hc] at h0
  · simp [ho, ha, hc] at hn

/-- R166: the step that takes a command byte. -/
theorem step_cmdGet {b : Byte} {rest : List Byte} (hp : s.phase = .cmdGet) (ht : s.tin = b :: rest) :
    step s = .next { s with
      tin := rest
      trace := s.trace ++ [.get b]
      regs := { s.regs with cbyte := some b }
      phase := .cmdPut } := by
  have hs : step s = .next (stepCmdGet s) := by simp only [step, hp]
  rcases stepCmdGet_cases s with ⟨hn, _⟩ | ⟨b', rest', ht', h'⟩
  · simp [ht] at hn
  · cases ht.symm.trans ht'
    exact hs.trans (congrArg _ h')

/-- R168: the step that packs a byte. -/
theorem step_txFill {b : Byte} {rest : List Byte} {w : Word} {j n : Nat} (hp : s.phase = .txFill)
    (hw : s.regs.word = some w) (hj : s.regs.j = some j) (hn : s.regs.n = some n) (ht : s.tin = b :: rest) :
    step s = .next { s with
      tin := rest
      trace := s.trace ++ [.get b]
      regs := { s.regs with word := some (orLane w j b), j := some (j + 1) }
      phase := if j + 1 = n then .txPush else .txFill } := by
  have hs : step s = .next (stepTxFill s) := by simp only [step, hp]
  rcases stepTxFill_cases s with ⟨hnil, _⟩ | ⟨b', rest', ht', ⟨_, _, _, hw', hj', hn', h'⟩ | ⟨hnone, _⟩⟩
  · simp [ht] at hnil
  · cases ht.symm.trans ht'
    cases hw.symm.trans hw'
    cases hj.symm.trans hj'
    cases hn.symm.trans hn'
    exact hs.trans (congrArg _ h')
  · simp [hw, hj, hn] at hnone

/-- R123: the step of the reply serializer, whether or not the transport accepts. -/
theorem step_reply {b : Byte} {rest : List Byte} {a : After} (hp : s.phase = .reply)
    (hr : s.regs.reply = some (b :: rest)) (ha : s.regs.after = some a) :
    step s = .next (if s.ready then { s with
      tout := s.tout ++ [b]
      trace := s.trace ++ [.put b]
      regs := { s.regs with reply := some rest }
      phase := if rest = [] then a.toPhase else .reply } else s) := by
  have hs : step s = stepReply s := by simp only [step, hp]
  rcases stepReply_cases s with ⟨h0, _⟩ | ⟨_, _, _, _, _, hy, h'⟩ | ⟨_, _, _, hr', ha', hy, h'⟩ | ⟨hn, _⟩
  · simp [hr] at h0
  · rw [hs, h', hy]
    rfl
  · cases hr.symm.trans hr'
    cases ha.symm.trans ha'
    rw [hs, h', hy]
    rfl
  · simp [hr, ha] at hn

/-- R172: the step that puts a lane, whether or not the transport accepts. -/
theorem step_rxEmit {w : Word} {j n : Nat} {rem : U24} (hp : s.phase = .rxEmit) (hw : s.regs.word = some w)
    (hj : s.regs.j = some j) (hn : s.regs.n = some n) (hr : s.regs.rem = some rem) :
    step s = .next (if s.ready then { s with
      tout := s.tout ++ [lane w j]
      trace := s.trace ++ [.put (lane w j)]
      regs := { s.regs with j := some (j + 1), rem := some (if j + 1 = n then remAfter rem n else rem) }
      phase := if j + 1 = n then (if remAfter rem n = 0#24 then .busyPoll else .rxPoll) else .rxEmit } else s) := by
  have hs : step s = .next (stepRxEmit s) := by simp only [step, hp]
  rcases stepRxEmit_cases s with
    ⟨_, _, _, _, hw', hj', hn', hr', ⟨hy, h'⟩ | ⟨hy, hlast, h'⟩ | ⟨hy, hmore, h'⟩⟩ | ⟨hnone, _⟩
  · rw [hs, h', hy]
    rfl
  · cases hw.symm.trans hw'
    cases hj.symm.trans hj'
    cases hn.symm.trans hn'
    cases hr.symm.trans hr'
    simp only [hs, h', hy, hlast, if_true]
  · cases hw.symm.trans hw'
    cases hj.symm.trans hj'
    cases hn.symm.trans hn'
    simp only [hs, h', hy, hmore, if_true, if_false, ← hr, ← hp]
  · simp [hw, hj, hn, hr] at hnone

/-- R28, R169, R172: the bytes left after a word. -/
theorem toNat_remAfter {rem : U24} {n : Nat} (h : n ≤ rem.toNat) : (remAfter rem n).toNat = rem.toNat - n := by
  simp only [remAfter, BitVec.toNat_sub, BitVec.toNat_ofNat]
  omega

end

/-- Settles O20. -/
theorem replyStep : Obligations.ReplyStep := by
  intro s b rest a hp hr ha
  rw [step_reply hp hr ha]
  refine ⟨fun hy => by simp [hy], fun hy => ?_⟩
  by_cases hrest : rest = []
  · cases a <;> simp [hy, hrest, After.toPhase]
  · simp [hy, hrest]

/-- Settles O27. -/
theorem transmitFill : Obligations.TransmitFill := fun _ _ _ _ hp hw hj hn =>
  ⟨fun ht => step_of_tin_nil ht (by simp [hp]), fun _ _ ht => step_txFill hp hw hj hn ht⟩

/-- Settles O30: the step of `RX_POP` for the word that the SPI master holds. -/
theorem receivePop : Obligations.ReceivePop := by
  intro s rem w ws hp hr hw
  obtain ⟨hnext, hread⟩ := State.readData_scripted hw
  rw [step_rxPop hp hr, hnext, hread]

/-- Settles O31. -/
theorem receiveEmit : Obligations.ReceiveEmit := by
  intro s w rem j n hp hw hr hj hn hle
  rw [step_rxEmit hp hw hj hn hr]
  refine ⟨fun hy => by simp [hy], fun hy => ⟨if j + 1 = n then remAfter rem n else rem, ?_, ?_⟩⟩
  · split
    · exact toNat_remAfter hle
    · rfl
  · have hleft : remAfter rem n = 0#24 ↔ ¬ 0 < rem.toNat - n := by
      rw [← toNat_remAfter hle]
      bv_omega
    simp only [hy, if_true, hleft, ite_not]
    rfl

/-! ### Holds, and what ends them -/

section
variable {s : State}

/-- R61: a step that performs the `Get` of the head of `tin`. -/
def State.takesHead (s : State) : Prop :=
  ∀ b rest, s.tin = b :: rest →
    ∃ regs p, step s = .next { s with tin := rest, trace := s.trace ++ [.get b], regs := regs, phase := p }

/-- R120, R121: an opcode is taken whether or not it has arguments. -/
theorem takesHead_awaitOpcode (hp : s.phase = .awaitOpcode) : s.takesHead := by
  intro op rest ht
  by_cases h0 : fixedArgs op = 0
  · obtain ⟨i, _, hd⟩ := decode_f0 h0 []
    obtain ⟨regs, hx⟩ := exec_next i { s with
      tin := rest, trace := s.trace ++ [.get op], regs := { Regs.unwritten with op := some op } }
    exact ⟨regs, .reply, (step_opcode_whole hp ht hd).trans hx⟩
  · exact ⟨_, _, step_opcode_with_args hp ht h0⟩

/-- R122: an argument is taken whether or not it is the last one. -/
theorem takesHead_arg (h : s.coherent) (hp : s.phase = .arg) : s.takesHead := by
  intro a rest ht
  have hr := h.2
  rw [hp] at hr
  obtain ⟨op, args, m, ho, ha, hm, hpos, hlen⟩ := hr
  obtain ⟨m, rfl⟩ := Nat.exists_eq_succ_of_ne_zero hpos.ne'
  by_cases h0 : m = 0
  · subst h0
    obtain ⟨i, hd⟩ := decode_of_fixedArgs (op := op) (args := args ++ [a]) (by simpa using hlen)
    obtain ⟨regs, hx⟩ := exec_next i { s with
      tin := rest, trace := s.trace ++ [.get a], regs := { s.regs with args := some (args ++ [a]), argc := some 0 } }
    exact ⟨regs, .reply, (step_last_arg hp ho ha hm ht hd).trans hx⟩
  · exact ⟨_, s.phase, step_arg_more hp ho ha hm h0 ht⟩

/-- R168: a data byte is taken; the registers of the word have been written. -/
theorem takesHead_txFill (h : s.coherent) (hp : s.phase = .txFill) : s.takesHead := by
  intro b rest ht
  have hr := h.2
  rw [hp] at hr
  obtain ⟨cl, rem, w, j, _, hn, hj, _, hw⟩ := hr
  exact ⟨_, _, step_txFill hp hw hj hn ht⟩

/-- R61: every `Get` of a coherent state. -/
theorem State.coherent.takesHead (h : s.coherent) (hp : s.phase ∈ [Phase.awaitOpcode, .arg, .cmdGet, .txFill]) :
    s.takesHead := by
  simp only [List.mem_cons, List.not_mem_nil, or_false] at hp
  rcases hp with hp | hp | hp | hp
  · exact takesHead_awaitOpcode hp
  · exact takesHead_arg h hp
  · exact fun b rest ht => ⟨_, _, step_cmdGet hp ht⟩
  · exact takesHead_txFill h hp

/-- R62: every `Put` of a coherent state: the byte is settled, and it goes out when the transport accepts. -/
theorem State.coherent.step_put (h : s.coherent) (hp : s.phase ∈ [Phase.reply, .rxEmit]) :
    ∃ b regs p, step s = .next (if s.ready then
      { s with tout := s.tout ++ [b], trace := s.trace ++ [.put b], regs := regs, phase := p } else s) := by
  have hr := h.2
  simp only [List.mem_cons, List.not_mem_nil, or_false] at hp
  rcases hp with hp | hp <;> rw [hp] at hr
  · obtain ⟨⟨r, hreply, hpos, _⟩, hafter⟩ := hr
    obtain ⟨b, rest, rfl⟩ := List.exists_cons_of_length_pos hpos
    obtain ⟨a, ha⟩ : ∃ a, s.regs.after = some a := by
      rcases hafter with ha | ⟨ha, _⟩ <;> exact ⟨_, ha⟩
    exact ⟨b, _, _, step_reply hp hreply ha⟩
  · obtain ⟨cl, rl, rem, w, j, _, ⟨_, _, hrem, _⟩, hn, hj, _, hw⟩ := hr
    exact ⟨lane w j, _, _, step_rxEmit hp hw hj hn hrem⟩

/-- R62: a coherent state that has a byte to put holds while the transport does not accept. -/
theorem State.coherent.step_of_not_ready (h : s.coherent) (hp : s.phase ∈ [Phase.reply, .rxEmit])
    (hy : s.ready = false) : step s = .next s := by
  obtain ⟨b, regs, p, hs⟩ := h.step_put hp
  simpa [hy] using hs

end

/-- Settles O39. -/
theorem getTakesHeadOrHolds : Obligations.GetTakesHeadOrHolds := by
  intro s h hp
  refine ⟨fun ht => step_of_tin_nil ht hp, fun b rest ht => ?_⟩
  obtain ⟨regs, p, hs⟩ := h.takesHead hp b rest ht
  exact ⟨_, hs, rfl, rfl⟩

/-- Settles O40. -/
theorem putAppendsOrHolds : Obligations.PutAppendsOrHolds := by
  intro s h hp
  refine ⟨h.step_of_not_ready hp, fun hy => ?_⟩
  obtain ⟨b, regs, p, hs⟩ := h.step_put hp
  rw [hy, if_pos rfl] at hs
  exact ⟨b, _, hs, rfl, rfl⟩

/-- Settles O41: a hold answers the same state, so it repeats. -/
theorem holdsHaveNoTimeout : Obligations.HoldsHaveNoTimeout := by
  rintro s n h (⟨ht, hp⟩ | ⟨hy, hp⟩)
  · exact runFor_of_hold (step_of_tin_nil ht hp) n
  · exact runFor_of_hold (h.step_of_not_ready hp hy) n

end Sys2Proof.Machine

namespace Sys2Proof

/-! ### The decoder on encoded commands -/

/-- R96: the three wire bytes of a length field assemble to it. -/
theorem u24OfBytes_extract (v : U24) :
    u24OfBytes (v.extractLsb' 0 8) (v.extractLsb' 8 8) (v.extractLsb' 16 8) = v := by
  refine BitVec.eq_of_getLsbD_eq fun i hi => ?_
  rcases (show i < 8 ∨ 8 ≤ i ∧ i < 16 ∨ 16 ≤ i by omega) with h | ⟨h, h'⟩ | h
  · simp [u24OfBytes, h, hi]
    omega
  · simp [u24OfBytes, h', show ¬ i < 8 by omega, show i - 8 < 8 by omega, Nat.add_sub_cancel' h,
      BitVec.getLsbD_eq_getElem hi]
  · simp [u24OfBytes, hi, show ¬ i < 8 by omega, show ¬ i < 16 by omega, show i - 16 < 8 by omega,
      show ¬ i - 8 < 8 by omega, Nat.add_sub_cancel' h]

/-- R95, R99: a well-formed command has as many argument bytes as its opcode takes. -/
theorem Instr.length_argBytes (i : Instr) (h : i.wf = true) : i.argBytes.length = fixedArgs i.opcode := by
  cases i with
  | unknown06 op => exact Laws.EncodeLength.unknown06 op h
  | unknown08 op => exact Laws.EncodeLength.unknown08 op h
  | unknown16 op => exact Laws.EncodeLength.unknown16 op h
  | unknown18 op => exact Laws.EncodeLength.unknown18 op h
  | unknown20 op => exact Laws.EncodeLength.unknown20 op h
  | unknown40 op => exact Laws.EncodeLength.unknown40 op h
  | unknown80 op => exact Laws.EncodeLength.unknown80 op h
  | _ => rfl

/-- R92, R94: a well-formed command without arguments is the one of its opcode byte. -/
theorem Instr.decodeOpcode_opcode (i : Instr) (h : i.wf = true) (h0 : fixedArgs i.opcode = 0) :
    decodeOpcode i.opcode = some i := by
  cases i with
  | unknown06 op | unknown08 op | unknown16 op | unknown18 op | unknown20 op | unknown40 op | unknown80 op =>
    clear h0
    revert h op
    decide
  | sBustype _ | oSpiop _ _ | sPinState _ => cases h0
  | _ => rfl

/-- R92, R95: an encoded command decodes to the command. -/
theorem Instr.decode_encode (i : Instr) (h : i.wf = true) : decode (encode i) = .ok (i, []) := by
  by_cases h0 : fixedArgs i.opcode = 0
  · have hargs : i.argBytes = [] := List.length_eq_zero_iff.mp ((i.length_argBytes h).trans h0)
    rw [encode, hargs]
    exact decode_singleton.mpr ⟨h0, i.decodeOpcode_opcode h h0⟩
  · cases i with
    | sBustype _ | sPinState _ => rfl
    | oSpiop cl rl =>
      refine (decode_oSpiop _ _ _ _ _ _ []).trans ?_
      rw [u24OfBytes_extract, u24OfBytes_extract]
    | unknown06 op | unknown08 op | unknown16 op | unknown18 op | unknown20 op | unknown40 op | unknown80 op =>
      exact absurd (Instr.length_argBytes _ h).symm h0
    | _ => exact absurd rfl h0

/-- R95: only `O_SPIOP` has a payload. -/
theorem Instr.payload_eq_zero {i : Instr} (h : ∀ cl rl, i ≠ .oSpiop cl rl) : i.cmdLength = 0 ∧ i.dataLength = 0 := by
  cases i with
  | oSpiop cl rl => exact absurd rfl (h cl rl)
  | _ => exact ⟨rfl, rfl⟩

end Sys2Proof

namespace Sys2Proof.Machine

/-! ### What a command's action leaves in the registers -/

/-- R121, R122, R163: the registers after the action of a command: its reply is queued, and `O_SPIOP` has written its
lengths, its direction and its burst length. -/
def regsAfter (p : Params) (i : Instr) (r : Regs) : Regs :=
  match i with
  | .oSpiop cl rl =>
    { r with
      cl := some cl
      rl := some rl
      mode := some (burstMode rl)
      len := some (burstLength cl rl)
      reply := some [ack]
      after := some .spiCtrl }
  | i => { r with reply := some (replyBytes p i), after := some .awaitOpcode }

/-- R121, R122: the action of every command. -/
theorem exec_eq (i : Instr) (s : State) :
    exec i s = .next { s with phase := .reply, regs := regsAfter s.params i s.regs } := by
  cases i with
  | sBustype a0 =>
    rw [exec_sBustype]
    by_cases h : a0 = 0x08#8 <;> simp [regsAfter, replyBytes, State.queueReply, h]
  | _ => rfl

/-- R92: the reply a command's action queues. -/
theorem regsAfter_reply (p : Params) (i : Instr) (r : Regs) : (regsAfter p i r).reply = some (replyBytes p i) := by
  cases i <;> rfl

/-- R121, R122: a command without a transaction leads back to the dispatch loop. -/
theorem regsAfter_after (p : Params) {i : Instr} (h : ∀ cl rl, i ≠ .oSpiop cl rl) (r : Regs) :
    (regsAfter p i r).after = some .awaitOpcode := by
  cases i with
  | oSpiop cl rl => exact absurd rfl (h cl rl)
  | _ => rfl

/-- R99: the reply of a command without a transaction is of the rule's length. -/
theorem length_replyBytes (p : Params) {i : Instr} (h : ∀ cl rl, i ≠ .oSpiop cl rl) :
    (replyBytes p i).length = i.replyLength := by
  cases i with
  | oSpiop cl rl => exact absurd rfl (h cl rl)
  | qPgmname => simp [replyBytes, Instr.replyLength, Params.length_pgmName]
  | sBustype a0 => by_cases h8 : a0 = 0x08#8 <;> simp [replyBytes, Instr.replyLength, h8]
  | _ => rfl

/-- R123: no command queues an empty reply. -/
theorem replyBytes_ne_nil (p : Params) (i : Instr) : replyBytes p i ≠ [] := by
  cases i with
  | sBustype a0 => by_cases h8 : a0 = 0x08#8 <;> simp [replyBytes, h8]
  | _ => exact List.cons_ne_nil _ _

/-! ### Runs of a live environment -/

/-- R284: the five liveness premises, of the frames the host sends. -/
structure Schedule.Live (e : Schedule) (s : State) (frames : List Frame) : Prop where
  hostIn : e.liveHostIn s frames
  hostOut : e.liveHostOut s
  tx : e.liveTx s
  rx : e.liveRx s
  busy : e.liveBusy s

/-- A state of a run from `s`: its phase and registers, and the bytes taken and given since `s`. -/
structure State.EngineAt (s : State) (p : Phase) (regs : Regs) (taken given : List Byte) (t : State) : Prop where
  phase : t.phase = p
  regs : t.regs = regs
  params : t.params = s.params
  taken : takenBytes t.trace = takenBytes s.trace ++ taken
  given : givenBytes t.trace = givenBytes s.trace ++ given

/-- In the run from `s` among the actions of `e` the engine comes to a step in phase `p` with registers `regs`, having taken
and given these bytes since `s`. -/
def Schedule.visits (e : Schedule) (s : State) (p : Phase) (regs : Regs) (taken given : List Byte) : Prop :=
  ∃ k t, e.reaches s k t ∧ s.EngineAt p regs taken given t

/-- R65: an access to the register file takes no byte from the host. -/
theorem takenBytes_append_access {tr : List Event} {ev : Event} (h : ev.register.isSome) :
    takenBytes (tr ++ [ev]) = takenBytes tr := by
  cases ev <;> simp_all [takenBytes, Event.register]

/-- R65: an access to the register file gives no byte to the host. -/
theorem givenBytes_append_access {tr : List Event} {ev : Event} (h : ev.register.isSome) :
    givenBytes (tr ++ [ev]) = givenBytes tr := by
  cases ev <;> simp_all [givenBytes, Event.register]

/-- The environment, and status reads, leave the engine where it is. -/
theorem State.EngineAt.sameEngine {s t u : State} {p : Phase} {regs : Regs} {taken given : List Byte}
    (h : s.EngineAt p regs taken given t) (hs : t.SameEngine u) : s.EngineAt p regs taken given u := by
  obtain ⟨hp, hr, hq, ht, hg⟩ := hs
  exact ⟨hp.trans h.phase, hr.trans h.regs, hq.trans h.params, ht.trans h.taken, hg.trans h.given⟩

/-- R65: an access to the register file takes and gives no byte. -/
theorem State.EngineAt.access {s t v : State} {ev : Event} {p : Phase} {regs : Regs} {taken given : List Byte}
    (h : s.EngineAt p regs taken given t) (hs : step t = .next v) (hv : v.trace = t.trace ++ [ev])
    (he : ev.register.isSome) : s.EngineAt v.phase v.regs taken given v :=
  ⟨rfl, rfl, (step_params hs).trans h.params, by rw [hv, takenBytes_append_access he, h.taken],
    by rw [hv, givenBytes_append_access he, h.given]⟩

section
variable {e : Schedule} {s : State} {frames : List Frame} {p : Phase} {regs : Regs} {taken given : List Byte}

/-- A run at a step comes to the state that the step answers. -/
theorem Schedule.visits_of_step {t v : State} {k : Nat} (hk : e.reaches s k t) (hs : step t = .next v)
    (hv : s.EngineAt p regs taken given v) : e.visits s p regs taken given := by
  obtain ⟨u, hu, hsame⟩ := Schedule.reaches_step hk hs
  exact ⟨k + 1, u, hu, hv.sameEngine hsame⟩

/-- R61, `LIVE_HOST_IN`: the engine comes to the end of a `Get` of the next byte of the frames. -/
theorem Schedule.visits.get {b : Byte} {p' : Phase} {regs' : Regs} (h : e.visits s p regs taken given)
    (live : e.Live s frames) (hp : p ∈ [Phase.awaitOpcode, .arg, .cmdGet, .txFill])
    (hb : taken ++ [b] <+: frames.flatMap Frame.bytes)
    (next : ∀ t rest, s.EngineAt p regs taken given t → t.tin = b :: rest → step t = .next { t with
      tin := rest, trace := t.trace ++ [.get b], regs := regs', phase := p' }) :
    e.visits s p' regs' (taken ++ [b]) given := by
  obtain ⟨k, t, hk, ht⟩ := h
  obtain ⟨rest, hrest⟩ := hb
  obtain ⟨j, u, more, hj, hsame, hin⟩ := Schedule.get_comes live.hostIn hk
    (fun u hu hnil => step_of_tin_nil hnil (by rw [hu, ht.phase]; exact hp)) ht.taken
    (rest := rest) (b := b) (by simpa using hrest)
  have hu := ht.sameEngine hsame
  refine Schedule.visits_of_step hj (next u more hu hin) ⟨rfl, rfl, hu.params, ?_, ?_⟩
  · simpa [takenBytes] using congrArg (· ++ [b]) hu.taken
  · simpa [givenBytes] using hu.given

/-- R62, `LIVE_HOST_OUT`: the engine comes to the end of a `Put`. -/
theorem Schedule.visits.put {b : Byte} {p' : Phase} {regs' : Regs} (h : e.visits s p regs taken given)
    (live : e.Live s frames) (hp : p = .reply ∨ p = .rxEmit)
    (next : ∀ t : State, t.phase = p → t.regs = regs → step t = .next (if t.ready then { t with
      tout := t.tout ++ [b], trace := t.trace ++ [.put b], regs := regs', phase := p' } else t)) :
    e.visits s p' regs' taken (given ++ [b]) := by
  obtain ⟨k, t, hk, ht⟩ := h
  obtain ⟨j, u, hj, hsame, hy⟩ := Schedule.put_comes live.hostOut hk (by rwa [ht.phase]) fun u hu hr hy => by
    simpa [hy] using next u (hu.trans ht.phase) (hr.trans ht.regs)
  have hu := ht.sameEngine hsame
  have hs := next u hu.phase hu.regs
  rw [hy, if_pos rfl] at hs
  refine Schedule.visits_of_step hj hs ⟨rfl, rfl, hu.params, ?_, ?_⟩
  · simpa [takenBytes] using hu.taken
  · simpa [givenBytes] using congrArg (· ++ [b]) hu.given

/-- R242: the engine comes to the end of a poll that, as its premise says, passes eventually. -/
theorem Schedule.visits.poll {p' : Phase} {regs' : Regs} (test : Params → Word → Bool) (pass : Bool)
    (h : e.visits s p regs taken given)
    (live : e.leadsTo s (fun t => t.phase = p) (fun t => t.phase = p ∧ test t.params t.nextStatus = pass))
    (next : ∀ t : State, t.phase = p → t.regs = regs → step t = .next (if test t.params t.nextStatus = pass then
      { t.readStatus with regs := regs', phase := p' } else t.readStatus)) :
    e.visits s p' regs' taken given := by
  obtain ⟨k, t, hk, ht⟩ := h
  obtain ⟨j, u, hj, hsame, hpass⟩ := Schedule.poll_passes p (fun q v => test q v = pass) live hk ht.phase
    fun u hu hr hn => by simpa [hn] using next u (hu.trans ht.phase) (hr.trans ht.regs)
  have hu := ht.sameEngine hsame
  have hs := next u hu.phase hu.regs
  rw [if_pos hpass] at hs
  exact Schedule.visits_of_step hj hs (hu.access hs rfl rfl)

/-- R63 to R65: the engine comes to the end of an access to the register file, which never waits. -/
theorem Schedule.visits.access {p' : Phase} {regs' : Regs} (h : e.visits s p regs taken given)
    (next : ∀ t, s.EngineAt p regs taken given t → ∃ v ev, step t = .next v ∧ v.trace = t.trace ++ [ev] ∧
      ev.register.isSome ∧ v.phase = p' ∧ v.regs = regs') :
    e.visits s p' regs' taken given := by
  obtain ⟨k, t, hk, ht⟩ := h
  obtain ⟨v, ev, hs, htrace, he, rfl, rfl⟩ := next t ht
  exact Schedule.visits_of_step hk hs (ht.access hs htrace he)

end

/-! ### The steps of the phases that access the register file -/

section
variable {s : State}

/-- R181: lengths that fit raise no fault. -/
theorem ctrlOverflows_eq_false {p : Params} {len cl : U24}
    (h : ∀ k, p.ctrlLenBits = some k → len.toNat < 2 ^ k ∧ cl.toNat < 2 ^ k) : ctrlOverflows p len cl = false := by
  unfold ctrlOverflows
  split
  · rfl
  · next k hk => simpa using h k hk

/-- R180: a command byte that fits raises no fault. -/
theorem cmdFifoFull_eq_false {p : Params} {cl c : U24} (hpos : 0#24 < c) (hle : c ≤ cl)
    (h : ∀ d, p.cmdFifoDepth = some d → cl.toNat ≤ d) : cmdFifoFull p cl c = false := by
  unfold cmdFifoFull
  split
  · rfl
  · next d hd =>
    have hfit := h d hd
    refine decide_eq_false ?_
    bv_omega

/-- R165: the control write of lengths that fit. -/
theorem step_spiCtrl {mode : Mode} {len cl : U24} (hp : s.phase = .spiCtrl) (hm : s.regs.mode = some mode)
    (hl : s.regs.len = some len) (hc : s.regs.cl = some cl) (hfit : ctrlOverflows s.params len cl = false) :
    step s = .next { s with
      spi := { s.spi with ctrl := ⟨mode.field, len, cl⟩ }
      trace := s.trace ++ [.wrCtrl mode.field len cl]
      regs := { s.regs with cmdRem := some cl, rem := some len }
      phase := if cl = 0#24 then burstPhase mode len else .cmdGet } := by
  have hs : step s = .next (stepSpiCtrl s) := by simp only [step, hp]
  rcases stepSpiCtrl_cases s with ⟨_, _, _, hm', hl', hc', ⟨ho, _⟩ | ⟨_, h'⟩⟩ | ⟨hn, _⟩
  · cases hl.symm.trans hl'
    cases hc.symm.trans hc'
    simp [hfit] at ho
  · cases hm.symm.trans hm'
    cases hl.symm.trans hl'
    cases hc.symm.trans hc'
    exact hs.trans (congrArg _ h')
  · simp [hm, hl, hc] at hn

/-- R166: the push of a command byte that fits. -/
theorem step_cmdPut {b : Byte} {c cl rem : U24} {mode : Mode} (hp : s.phase = .cmdPut) (hb : s.regs.cbyte = some b)
    (hc : s.regs.cmdRem = some c) (hl : s.regs.cl = some cl) (hm : s.regs.mode = some mode)
    (hr : s.regs.rem = some rem) (hfit : cmdFifoFull s.params cl c = false) :
    step s = .next { s with
      spi := { s.spi with cmdFifo := s.spi.cmdFifo ++ [b] }
      trace := s.trace ++ [.wrCmdFifo b]
      regs := { s.regs with cmdRem := some (c - 1#24) }
      phase := if c - 1#24 = 0#24 then burstPhase mode rem else .cmdGet } := by
  have hs : step s = .next (stepCmdPut s) := by simp only [step, hp]
  rcases stepCmdPut_cases s with ⟨_, _, _, _, _, hb', hc', hl', hm', hr', ⟨ho, _⟩ | ⟨_, h'⟩⟩ | ⟨hn, _⟩
  · cases hc.symm.trans hc'
    cases hl.symm.trans hl'
    simp [hfit] at ho
  · cases hb.symm.trans hb'
    cases hc.symm.trans hc'
    cases hm.symm.trans hm'
    cases hr.symm.trans hr'
    exact hs.trans (congrArg _ h')
  · simp [hb, hc, hl, hm, hr] at hn

/-- R169: the push of a data word. -/
theorem step_txPush {w : Word} {rem : U24} {n : Nat} (hp : s.phase = .txPush) (hw : s.regs.word = some w)
    (hr : s.regs.rem = some rem) (hn : s.regs.n = some n) :
    step s = .next { s with
      spi := { s.spi with txFifo := s.spi.txFifo ++ [w] }
      trace := s.trace ++ [.wrDataFifo w]
      regs := { s.regs with rem := some (remAfter rem n) }
      phase := if remAfter rem n = 0#24 then .busyPoll else .txPoll } := by
  have hs : step s = .next (stepTxPush s) := by simp only [step, hp]
  rcases stepTxPush_cases s with ⟨_, _, _, hw', hr', hn', h'⟩ | ⟨hnone, _⟩
  · cases hw.symm.trans hw'
    cases hr.symm.trans hr'
    cases hn.symm.trans hn'
    exact hs.trans (congrArg _ h')
  · simp [hw, hr, hn] at hnone

/-- R167: the transmit poll, by its test. -/
theorem step_txPoll_eq_ite {rem : U24} (hp : s.phase = .txPoll) (hr : s.regs.rem = some rem) :
    step s = .next (if s.params.hasCapacity s.nextStatus = true then { s.readStatus with
      regs := { s.regs with n := some (chunk rem), j := some 0, word := some 0#32 }
      phase := .txFill } else s.readStatus) := by
  have hs : step s = .next (stepTxPoll s) := by simp only [step, hp]
  rcases stepTxPoll_cases s with ⟨_, hr', ⟨hc, h'⟩ | ⟨hc, h'⟩⟩ | ⟨hn, _⟩
  · cases hr.symm.trans hr'
    rw [hs, h', if_pos hc]
  · rw [hs, h', hc]
    rfl
  · simp [hr] at hn

/-- R170: the receive poll, by its test. -/
theorem step_rxPoll_eq_ite (hp : s.phase = .rxPoll) :
    step s = .next (if s.params.hasData s.nextStatus = true then { s.readStatus with phase := .rxPop }
      else s.readStatus) := by
  have hs : step s = .next (stepRxPoll s) := by simp only [step, hp]
  rcases stepRxPoll_cases s with ⟨hd, h'⟩ | ⟨hd, h'⟩
  · rw [hs, h', if_pos hd]
  · rw [hs, h', hd]
    rfl

/-- R173: the completion poll, by its test. -/
theorem step_busyPoll_eq_ite (hp : s.phase = .busyPoll) :
    step s = .next (if s.params.isBusy s.nextStatus = false then { s.readStatus with phase := .awaitOpcode }
      else s.readStatus) := by
  have hs : step s = .next (stepBusyPoll s) := by simp only [step, hp]
  rcases stepBusyPoll_cases s with ⟨hb, h'⟩ | ⟨hb, h'⟩
  · rw [hs, h', hb]
    rfl
  · rw [hs, h', if_pos hb]

end

/-! ### A live run, phase by phase -/

section
variable {e : Schedule} {s : State} {frames : List Frame} {regs : Regs} {taken given : List Byte}
  {cl rl rem : U24}

/-- R122: the arguments of a command come in, and the command acts. -/
theorem Schedule.visits.args (live : e.Live s frames) {op : Byte} {i : Instr} :
    ∀ (bs args taken : List Byte) (regs : Regs),
    e.visits s .arg regs taken given → bs ≠ [] → regs.op = some op → regs.args = some args →
    regs.argc = some bs.length → decode (op :: (args ++ bs)) = .ok (i, []) →
    taken ++ bs <+: frames.flatMap Frame.bytes →
    ∃ regs', e.visits s .reply (regsAfter s.params i regs') (taken ++ bs) given
  | [], _, _, _, _, hne, _, _, _, _, _ => absurd rfl hne
  | [a], args, taken, regs, h, _, ho, ha, hc, hd, hin =>
    ⟨{ regs with args := some (args ++ [a]), argc := some 0 }, h.get live (by simp) hin fun t rest ht htin => by
      obtain rfl := ht.regs
      rw [step_last_arg ht.phase ho ha hc htin hd, exec_eq, ← ht.params]⟩
  | a :: b :: bs, args, taken, regs, h, _, ho, ha, hc, hd, hin => by
    have hnext := h.get (b := a) (p' := .arg)
      (regs' := { regs with args := some (args ++ [a]), argc := some (b :: bs).length }) live (by simp)
      (List.IsPrefix.trans ⟨b :: bs, by simp⟩ hin) fun t rest ht htin => by
        obtain rfl := ht.regs
        rw [step_arg_more ht.phase ho ha hc (by simp) htin, ← ht.phase]
    obtain ⟨regs', hv⟩ := hnext.args live (b :: bs) (args ++ [a]) (taken ++ [a]) _ (by simp) ho rfl rfl
      (by simpa using hd) (by simpa using hin)
    exact ⟨regs', by simpa using hv⟩

/-- R120 to R122: the bytes of a command come in, and the command acts. -/
theorem Schedule.visits.command (h : e.visits s .awaitOpcode regs taken given) (live : e.Live s frames) {i : Instr}
    (hi : i.wf = true) (hin : taken ++ encode i <+: frames.flatMap Frame.bytes) :
    ∃ regs', e.visits s .reply (regsAfter s.params i regs') (taken ++ encode i) given := by
  have hlen := i.length_argBytes hi
  have hd := i.decode_encode hi
  rw [encode] at hin hd ⊢
  have hop : taken ++ [i.opcode] <+: frames.flatMap Frame.bytes := List.IsPrefix.trans ⟨i.argBytes, by simp⟩ hin
  by_cases h0 : fixedArgs i.opcode = 0
  · rw [List.length_eq_zero_iff.mp (hlen.trans h0)] at hd ⊢
    exact ⟨_, h.get live (by simp) hop fun t rest ht htin => by
      rw [step_opcode_whole ht.phase htin hd, exec_eq, ← ht.params]⟩
  · have harg := h.get live (by simp) hop fun t rest ht htin => step_opcode_with_args ht.phase htin h0
    obtain ⟨regs', hv⟩ := harg.args live i.argBytes [] _ _ (by rintro hnil; simp [hnil] at hlen; omega) rfl rfl
      (congrArg some hlen.symm) hd (by simpa using hin)
    exact ⟨regs', by simpa using hv⟩

/-- R123: a queued reply goes out, and the phase that `after` names is entered. -/
theorem Schedule.visits.reply (live : e.Live s frames) {a : After} : ∀ (bs given : List Byte) (regs : Regs),
    e.visits s .reply regs taken given → bs ≠ [] → regs.reply = some bs → regs.after = some a →
    e.visits s a.toPhase { regs with reply := some [] } taken (given ++ bs)
  | [], _, _, _, hne, _, _ => absurd rfl hne
  | [b], given, regs, h, _, hr, ha =>
    h.put live (.inl rfl) fun t hp ht => by
      subst ht
      exact step_reply hp hr ha
  | b :: c :: bs, given, regs, h, _, hr, ha => by
    have hnext := h.put (b := b) (p' := .reply) (regs' := { regs with reply := some (c :: bs) }) live (.inl rfl)
      fun t hp ht => by
        subst ht
        exact step_reply hp hr ha
    simpa using hnext.reply live (c :: bs) (given ++ [b]) _ (by simp) rfl ha

/-- R166: one command byte is streamed. -/
theorem Schedule.visits.commandByte (h : e.visits s .cmdGet regs taken given) (live : e.Live s frames) {c : U24}
    {mode : Mode} {b : Byte} (hfit : ∀ d, s.params.cmdFifoDepth = some d → cl.toNat ≤ d) (hpos : 0#24 < c) (hle : c ≤ cl)
    (hc : regs.cmdRem = some c) (hl : regs.cl = some cl) (hm : regs.mode = some mode) (hr : regs.rem = some rem)
    (hin : taken ++ [b] <+: frames.flatMap Frame.bytes) :
    e.visits s (if c - 1#24 = 0#24 then burstPhase mode rem else .cmdGet)
      { regs with cbyte := some b, cmdRem := some (c - 1#24) } (taken ++ [b]) given := by
  have hget := h.get (p' := .cmdPut) (regs' := { regs with cbyte := some b }) live (by simp) hin fun t rest ht htin => by
    obtain rfl := ht.regs
    exact step_cmdGet ht.phase htin
  refine hget.access fun t ht => ?_
  obtain ⟨hp, hregs, hq, _, _⟩ := ht
  have hroom := cmdFifoFull_eq_false (p := t.params) hpos hle (hq ▸ hfit)
  have hs := step_cmdPut (s := t) (b := b) (mode := mode) (rem := rem) hp (by rw [hregs]) (by rw [hregs, hc])
    (by rw [hregs, hl]) (by rw [hregs, hm]) (by rw [hregs, hr]) hroom
  exact ⟨_, _, hs, rfl, rfl, rfl, by rw [hregs]⟩

/-- R166: the command bytes are streamed, and the burst is entered. -/
theorem Schedule.visits.commandBytes (live : e.Live s frames) {mode : Mode}
    (hfit : ∀ d, s.params.cmdFifoDepth = some d → cl.toNat ≤ d) : ∀ (cmd taken : List Byte) (c : U24) (regs : Regs),
    e.visits s .cmdGet regs taken given → cmd.length = c.toNat → 0#24 < c → c ≤ cl → regs.cmdRem = some c →
    regs.cl = some cl → regs.mode = some mode → regs.rem = some rem →
    taken ++ cmd <+: frames.flatMap Frame.bytes →
    ∃ regs', e.visits s (burstPhase mode rem) regs' (taken ++ cmd) given ∧ regs'.rem = some rem
  | [], _, c, _, _, hlen, hpos, _, _, _, _, _, _ => by
    simp only [List.length_nil] at hlen
    bv_omega
  | b :: cmd, taken, c, regs, h, hlen, hpos, hle, hc, hl, hm, hr, hin => by
    have hbyte := h.commandByte (b := b) live hfit hpos hle hc hl hm hr (List.IsPrefix.trans ⟨cmd, by simp⟩ hin)
    have hlen' : cmd.length = (c - 1#24).toNat := by
      simp only [List.length_cons] at hlen
      bv_omega
    by_cases hlast : c - 1#24 = 0#24
    · obtain rfl : cmd = [] := List.length_eq_zero_iff.mp (by simp [hlen', hlast])
      rw [if_pos hlast] at hbyte
      exact ⟨_, hbyte, hr⟩
    · rw [if_neg hlast] at hbyte
      obtain ⟨regs', hv, hrem⟩ := hbyte.commandBytes live hfit cmd (taken ++ [b]) (c - 1#24) _ hlen' (by bv_omega)
        (by bv_omega) rfl hl hm hr (by simpa using hin)
      exact ⟨regs', by simpa using hv, hrem⟩

/-- R165, R166: the control write, the command bytes, and the burst with all its bytes left to move. -/
theorem Schedule.visits.control (h : e.visits s .spiCtrl regs taken given) (live : e.Live s frames)
    {cmd : List Byte} (hfit : (Instr.oSpiop cl rl).fits s.params) (hcl : regs.cl = some cl)
    (hm : regs.mode = some (burstMode rl)) (hl : regs.len = some (burstLength cl rl)) (hlen : cmd.length = cl.toNat)
    (hin : taken ++ cmd <+: frames.flatMap Frame.bytes) :
    ∃ regs', e.visits s (pollPhase rl (burstLength cl rl)) regs' (taken ++ cmd) given ∧
      regs'.rem = some (burstLength cl rl) := by
  obtain ⟨hbits, hdepth⟩ := hfit
  have hroom : ctrlOverflows s.params (burstLength cl rl) cl = false := ctrlOverflows_eq_false fun k hk => by
    obtain ⟨hrl, hcl⟩ := hbits k cl rl rfl hk
    refine ⟨?_, hcl⟩
    unfold burstLength
    split <;> assumption
  have hctrl := h.access (p' := if cl = 0#24 then burstPhase (burstMode rl) (burstLength cl rl) else .cmdGet)
    (regs' := { regs with cmdRem := some cl, rem := some (burstLength cl rl) }) fun t ht => by
      obtain ⟨hp, rfl, hq, _, _⟩ := ht
      exact ⟨_, _, step_spiCtrl hp hm hl hcl (hq ▸ hroom), rfl, rfl, rfl, rfl⟩
  rw [burstPhase_eq_pollPhase] at hctrl
  by_cases h0 : cl = 0#24
  · obtain rfl : cmd = [] := List.length_eq_zero_iff.mp (by simp [hlen, h0])
    rw [if_pos h0] at hctrl
    exact ⟨_, by simpa using hctrl, rfl⟩
  · rw [if_neg h0] at hctrl
    rw [← burstPhase_eq_pollPhase]
    exact hctrl.commandBytes live hdepth cmd taken cl _ hlen (by bv_omega) (BitVec.le_refl _) rfl hcl hm rfl hin

/-- R168: the bytes of a word come in, each into its lane. -/
theorem Schedule.visits.fill (live : e.Live s frames) {n : Nat} :
    ∀ (bs taken : List Byte) (w : Word) (j : Nat) (regs : Regs),
    e.visits s .txFill regs taken given → bs ≠ [] → j + bs.length = n → regs.word = some w → regs.j = some j →
    regs.n = some n → taken ++ bs <+: frames.flatMap Frame.bytes →
    ∃ regs' w', e.visits s .txPush regs' (taken ++ bs) given ∧ regs'.word = some w' ∧ regs'.n = some n ∧
      regs'.rem = regs.rem
  | [], _, _, _, _, _, hne, _, _, _, _, _ => absurd rfl hne
  | b :: bs, taken, w, j, regs, h, _, hlen, hw, hj, hn, hin => by
    have hfill := h.get (b := b) (p' := if j + 1 = n then .txPush else .txFill)
      (regs' := { regs with word := some (orLane w j b), j := some (j + 1) }) live (by simp)
      (List.IsPrefix.trans ⟨bs, by simp⟩ hin) fun t rest ht htin => by
        obtain rfl := ht.regs
        exact step_txFill ht.phase hw hj hn htin
    by_cases hlast : bs = []
    · subst hlast
      rw [if_pos (show j + 1 = n from hlen)] at hfill
      exact ⟨_, _, hfill, rfl, hn, rfl⟩
    · have hpos := List.length_pos_iff.mpr hlast
      rw [List.length_cons] at hlen
      rw [if_neg (by omega)] at hfill
      obtain ⟨regs', w', hv, hword, hn', hrem⟩ := hfill.fill live bs (taken ++ [b]) _ (j + 1) _ hlast (by omega) rfl rfl
        hn (by simpa using hin)
      exact ⟨regs', w', by simpa using hv, hword, hn', hrem⟩

/-- R172: the lanes of a word go out, and the word is counted off. -/
theorem Schedule.visits.emit (live : e.Live s frames) {w : Word} {n : Nat} (left : Nat) :
    ∀ (given : List Byte) (j : Nat) (regs : Regs),
    e.visits s .rxEmit regs taken given → j + (left + 1) = n → regs.word = some w → regs.j = some j →
    regs.n = some n → regs.rem = some rem →
    ∃ regs' bs, e.visits s (if remAfter rem n = 0#24 then .busyPoll else .rxPoll) regs' taken (given ++ bs) ∧
      bs.length = left + 1 ∧ regs'.rem = some (remAfter rem n) := by
  induction left with
  | zero =>
    intro given j regs h hlen hw hj hn hr
    have hput := h.put (b := lane w j) (p' := if remAfter rem n = 0#24 then .busyPoll else .rxPoll)
      (regs' := { regs with j := some (j + 1), rem := some (remAfter rem n) }) live (.inr rfl) fun t hp ht => by
        subst ht
        simpa [show j + 1 = n from hlen] using step_rxEmit hp hw hj hn hr
    exact ⟨_, [lane w j], hput, rfl, rfl⟩
  | succ left ih =>
    intro given j regs h hlen hw hj hn hr
    have hput := h.put (b := lane w j) (p' := .rxEmit)
      (regs' := { regs with j := some (j + 1), rem := some rem }) live (.inr rfl) fun t hp ht => by
        subst ht
        simpa [show j + 1 ≠ n by omega] using step_rxEmit hp hw hj hn hr
    obtain ⟨regs', bs, hv, hbs, hrem⟩ := ih (given ++ [lane w j]) (j + 1) _ hput (by omega) hw rfl hn rfl
    exact ⟨regs', lane w j :: bs, by simpa using hv, by simp [hbs], hrem⟩

/-- R29: a word carries no more bytes than are left. -/
theorem chunk_le (rem : U24) : chunk rem ≤ rem.toNat := Nat.min_le_right 4 rem.toNat

/-- R167 to R169: one data word of a transmit burst. -/
theorem Schedule.visits.txWord (h : e.visits s .txPoll regs taken given) (live : e.Live s frames)
    {bs : List Byte} (hr : regs.rem = some rem) (hpos : 0#24 < rem) (hlen : bs.length = chunk rem)
    (hin : taken ++ bs <+: frames.flatMap Frame.bytes) :
    ∃ regs', e.visits s (pollPhase 0#24 (remAfter rem (chunk rem))) regs' (taken ++ bs) given ∧
      regs'.rem = some (remAfter rem (chunk rem)) := by
  have hpoll := h.poll Params.hasCapacity true live.tx (p' := .txFill)
    (regs' := { regs with n := some (chunk rem), j := some 0, word := some 0#32 }) fun t hp ht => by
      subst ht
      exact step_txPoll_eq_ite hp hr
  have hne : bs ≠ [] := List.length_pos_iff.mp (hlen ▸ chunk_pos hpos)
  obtain ⟨regs', w, hfill, hw, hn, hr'⟩ := hpoll.fill live bs taken _ 0 _ hne (by omega) rfl rfl rfl hin
  have hpush := hfill.access (p' := pollPhase 0#24 (remAfter rem (chunk rem)))
    (regs' := { regs' with rem := some (remAfter rem (chunk rem)) }) fun t ht => by
      obtain ⟨hp, rfl, _, _, _⟩ := ht
      exact ⟨_, _, step_txPush hp hw (hr'.trans hr) hn, rfl, rfl, (pollPhase_tx _).symm, rfl⟩
  exact ⟨_, hpush, rfl⟩

/-- R170 to R172: one data word of a receive burst. -/
theorem Schedule.visits.rxWord (h : e.visits s .rxPoll regs taken given) (live : e.Live s frames)
    (hr : regs.rem = some rem) (hpos : 0#24 < rem) (hrl : rl ≠ 0#24) :
    ∃ regs' bs, e.visits s (pollPhase rl (remAfter rem (chunk rem))) regs' taken (given ++ bs) ∧
      bs.length = chunk rem ∧ regs'.rem = some (remAfter rem (chunk rem)) := by
  have hpoll := h.poll Params.hasData true live.rx (p' := .rxPop) (regs' := regs) fun t hp ht => by
    subst ht
    exact step_rxPoll_eq_ite hp
  obtain ⟨k, t, hk, ht⟩ := hpoll
  have hs := step_rxPop ht.phase (ht.regs ▸ hr)
  have hpop := Schedule.visits_of_step hk hs (ht.access hs rfl rfl)
  obtain ⟨left, hleft⟩ := Nat.exists_eq_add_one_of_ne_zero (chunk_pos hpos).ne'
  rw [pollPhase_rx hrl, hleft]
  exact hpop.emit live left given 0 _ (Nat.zero_add _) rfl rfl (congrArg some hleft) (ht.regs ▸ hr)

/-- R167 to R169: a transmit burst takes as many data bytes as are left. -/
theorem Schedule.visits.transmit (h : e.visits s (pollPhase 0#24 rem) regs taken given) (live : e.Live s frames)
    {data : List Byte} (hr : regs.rem = some rem) (hlen : data.length = rem.toNat)
    (hin : taken ++ data <+: frames.flatMap Frame.bytes) :
    ∃ regs', e.visits s .busyPoll regs' (taken ++ data) given := by
  induction hk : rem.toNat using Nat.strong_induction_on generalizing rem regs taken data with
  | _ k ih =>
  by_cases h0 : rem = 0#24
  · obtain rfl : data = [] := List.length_eq_zero_iff.mp (by simp [hlen, h0])
    exact ⟨regs, by simpa [pollPhase, h0] using h⟩
  · have hpos : 0#24 < rem := by bv_omega
    have hle := chunk_le rem
    have hafter := toNat_remAfter hle
    have hchunk := chunk_pos hpos
    rw [pollPhase_tx, if_neg h0] at h
    obtain ⟨regs', hword, hr'⟩ := h.txWord live (bs := data.take (chunk rem)) hr hpos (by simp; omega)
      (List.IsPrefix.trans ⟨data.drop (chunk rem), by simp⟩ hin)
    obtain ⟨regs'', hrest⟩ := ih _ (by omega) hword (data := data.drop (chunk rem)) hr' (by simp; omega)
      (by simpa using hin) rfl
    exact ⟨regs'', by simpa using hrest⟩

/-- R170 to R172: a receive burst gives as many bytes as are left. -/
theorem Schedule.visits.receive (h : e.visits s (pollPhase rl rem) regs taken given) (live : e.Live s frames)
    (hrl : rl ≠ 0#24) (hr : regs.rem = some rem) :
    ∃ regs' bs, e.visits s .busyPoll regs' taken (given ++ bs) ∧ bs.length = rem.toNat := by
  induction hk : rem.toNat using Nat.strong_induction_on generalizing rem regs given with
  | _ k ih =>
  by_cases h0 : rem = 0#24
  · exact ⟨regs, [], by simpa [pollPhase, h0] using h, by simp [← hk, h0]⟩
  · have hpos : 0#24 < rem := by bv_omega
    have hle := chunk_le rem
    have hafter := toNat_remAfter hle
    have hchunk := chunk_pos hpos
    rw [pollPhase_rx hrl, if_neg h0] at h
    obtain ⟨regs', bs, hword, hlen, hr'⟩ := h.rxWord live hr hpos hrl
    obtain ⟨regs'', bs', hrest, hlen'⟩ := ih _ (by omega) hword hr' rfl
    exact ⟨regs'', bs ++ bs', by simpa using hrest, by simp; omega⟩

/-- R163, R173: a burst takes the data bytes of a write or gives those of a read, and ends in `AWAIT_OPCODE`. -/
theorem Schedule.visits.burst (h : e.visits s (pollPhase rl (burstLength cl rl)) regs taken given)
    (live : e.Live s frames) {data : List Byte} (hr : regs.rem = some (burstLength cl rl))
    (hlen : data.length = (Instr.oSpiop cl rl).dataLength) (hin : taken ++ data <+: frames.flatMap Frame.bytes) :
    ∃ regs' bs, e.visits s .awaitOpcode regs' (taken ++ data) (given ++ bs) ∧ bs.length = rl.toNat := by
  have ends {regs : Regs} {taken given : List Byte} (h : e.visits s .busyPoll regs taken given) :
      e.visits s .awaitOpcode regs taken given :=
    h.poll Params.isBusy false live.busy fun t hp ht => by
      subst ht
      exact step_busyPoll_eq_ite hp
  by_cases hrl : rl = 0#24
  · subst hrl
    obtain ⟨regs', hv⟩ := h.transmit live hr (by simpa [Instr.dataLength, burstLength] using hlen) hin
    exact ⟨regs', [], by simpa using ends hv, rfl⟩
  · obtain rfl : data = [] := List.length_eq_zero_iff.mp (by simpa [Instr.dataLength, hrl] using hlen)
    obtain ⟨regs', bs, hv, hbs⟩ := h.receive live hrl hr
    exact ⟨regs', bs, by simpa using ends hv, by simpa [burstLength, hrl] using hbs⟩

/-- R99: the reply to a frame: of the rule's length, and as the opcode map begins it. -/
def repliesTo (p : Params) (f : Frame) (r : List Byte) : Prop :=
  r.length = f.instr.replyLength ∧ replyBytes p f.instr <+: r

/-- R121, R122: a frame without a transaction is served. -/
theorem Schedule.visits.shortFrame (h : e.visits s .awaitOpcode regs taken given) (live : e.Live s frames) {i : Instr}
    (hi : i.wf = true) (hshort : ∀ cl rl, i ≠ .oSpiop cl rl) (hin : taken ++ encode i <+: frames.flatMap Frame.bytes) :
    ∃ regs', e.visits s .awaitOpcode regs' (taken ++ encode i) (given ++ replyBytes s.params i) := by
  obtain ⟨regs₁, h₁⟩ := h.command live hi hin
  exact ⟨_, h₁.reply (a := .awaitOpcode) live _ _ _ (replyBytes_ne_nil s.params i) (regsAfter_reply _ _ _)
    (regsAfter_after _ hshort _)⟩

/-- A frame of `O_SPIOP` is served. -/
theorem Schedule.visits.spiopFrame (h : e.visits s .awaitOpcode regs taken given) (live : e.Live s frames)
    {cmd data : List Byte} (hcmd : cmd.length = cl.toNat)
    (hdata : data.length = (Instr.oSpiop cl rl).dataLength) (hfit : (Instr.oSpiop cl rl).fits s.params)
    (hin : taken ++ (Frame.mk (.oSpiop cl rl) cmd data).bytes <+: frames.flatMap Frame.bytes) :
    ∃ regs' r, e.visits s .awaitOpcode regs' (taken ++ (Frame.mk (.oSpiop cl rl) cmd data).bytes) (given ++ r) ∧
      repliesTo s.params ⟨.oSpiop cl rl, cmd, data⟩ r := by
  simp only [Frame.bytes, ← List.append_assoc] at hin ⊢
  have hin' := List.IsPrefix.trans (List.prefix_append _ data) hin
  obtain ⟨regs₁, h₁⟩ := h.command live (i := .oSpiop cl rl) rfl (List.IsPrefix.trans (List.prefix_append _ cmd) hin')
  have h₂ := h₁.reply live _ _ _ (List.cons_ne_nil ack []) rfl rfl
  obtain ⟨regs₃, h₃, hrem⟩ := h₂.control live hfit rfl rfl rfl hcmd hin'
  obtain ⟨regs₄, bs, h₄, hlen⟩ := h₃.burst live hrem hdata hin
  exact ⟨regs₄, ack :: bs, by simpa using h₄, by simp [hlen, Instr.replyLength, Nat.add_comm], ⟨bs, rfl⟩⟩

/-- R284: a frame whose lengths fit is served. -/
theorem Schedule.visits.frame (h : e.visits s .awaitOpcode regs taken given) (live : e.Live s frames) {f : Frame}
    (hf : f.wf = true) (hfit : f.instr.fits s.params) (hin : taken ++ f.bytes <+: frames.flatMap Frame.bytes) :
    ∃ regs' r, e.visits s .awaitOpcode regs' (taken ++ f.bytes) (given ++ r) ∧ repliesTo s.params f r := by
  obtain ⟨i, cmd, data⟩ := f
  simp only [Frame.wf, Bool.and_eq_true, beq_iff_eq] at hf
  obtain ⟨⟨hi, hcmd⟩, hdata⟩ := hf
  by_cases hop : ∃ cl rl, i = .oSpiop cl rl
  · obtain ⟨cl, rl, rfl⟩ := hop
    exact h.spiopFrame live hcmd hdata hfit hin
  · have hshort : ∀ cl rl, i ≠ .oSpiop cl rl := fun cl rl e => hop ⟨cl, rl, e⟩
    obtain ⟨hc0, hd0⟩ := Instr.payload_eq_zero hshort
    obtain rfl : cmd = [] := List.length_eq_zero_iff.mp (hcmd.trans hc0)
    obtain rfl : data = [] := List.length_eq_zero_iff.mp (hdata.trans hd0)
    simp only [Frame.bytes, List.append_nil] at hin ⊢
    obtain ⟨regs', hv⟩ := h.shortFrame live hi hshort hin
    exact ⟨regs', _, hv, length_replyBytes s.params hshort, List.prefix_refl _⟩

/-- R284: any number of frames are served, one after the other. -/
theorem Schedule.visits.frameList (live : e.Live s frames) :
    ∀ (fs : List Frame) (taken given : List Byte) (regs : Regs),
    e.visits s .awaitOpcode regs taken given → (∀ f ∈ fs, f.wf = true ∧ f.instr.fits s.params) →
    taken ++ fs.flatMap Frame.bytes <+: frames.flatMap Frame.bytes →
    ∃ regs' replies, e.visits s .awaitOpcode regs' (taken ++ fs.flatMap Frame.bytes) (given ++ replies.flatten) ∧
      List.Forall₂ (repliesTo s.params) fs replies
  | [], taken, given, regs, h, _, _ => ⟨regs, [], by simpa using h, .nil⟩
  | f :: fs, taken, given, regs, h, hfs, hin => by
    simp only [List.flatMap_cons, ← List.append_assoc] at hin ⊢
    obtain ⟨⟨hf, hfit⟩, hfs⟩ := List.forall_mem_cons.mp hfs
    obtain ⟨regs₁, r, h₁, hr⟩ := h.frame live hf hfit (List.IsPrefix.trans (List.prefix_append _ _) hin)
    obtain ⟨regs₂, replies, h₂, hreplies⟩ := h₁.frameList live fs _ _ _ hfs hin
    exact ⟨regs₂, r :: replies, by simpa using h₂, .cons hr hreplies⟩

end

/-- Settles O38: the run starts in `AWAIT_OPCODE` with nothing taken or given. -/
theorem completeFramesAreServed : Obligations.CompleteFramesAreServed := by
  intro e s frames hp hframes hostIn hostOut tx rx busy
  obtain ⟨keepPhase, _, keepParams, keepTrace⟩ := foldl_env_keeps (e 0) s
  have start : e.visits s .awaitOpcode _ [] [] :=
    ⟨0, _, e.reaches_zero s, keepPhase.trans hp, rfl, keepParams, by simp [keepTrace], by simp [keepTrace]⟩
  obtain ⟨regs, replies, ⟨k, t, hk, ht⟩, hreplies⟩ :=
    start.frameList ⟨hostIn, hostOut, tx, rx, busy⟩ frames [] [] _ hframes (by simp)
  exact ⟨k, t, hk, ht.phase, by simpa using ht.taken, replies, by simpa using ht.given, hreplies⟩

end Sys2Proof.Machine

/-! PROOFS of the statements about the wire format (spec/30_encoding.md): the decoder and the encoder are each other's inverse,
frames keep their payload, and which opcodes are `UNKNOWN`. -/

namespace Sys2Proof

/-! ### Length fields -/

/-- R96: a length field is the unsigned number of its bytes, least significant first. -/
theorem toNat_u24OfBytes (a b c : Byte) :
    (u24OfBytes a b c).toNat = a.toNat + 2 ^ 8 * b.toNat + 2 ^ 16 * c.toNat := by
  have ha := a.isLt
  have hb := b.isLt
  have hc := c.isLt
  have low : a.toNat ||| 2 ^ 8 * b.toNat = 2 ^ 8 * b.toNat + a.toNat :=
    (Nat.or_comm _ _).trans (Nat.two_pow_add_eq_or_of_lt ha _).symm
  have high : (2 ^ 8 * b.toNat + a.toNat) ||| 2 ^ 16 * c.toNat = 2 ^ 16 * c.toNat + (2 ^ 8 * b.toNat + a.toNat) :=
    (Nat.or_comm _ _).trans (Nat.two_pow_add_eq_or_of_lt (by omega) _).symm
  have shiftB : (b.setWidth 24 <<< 8).toNat = 2 ^ 8 * b.toNat := by
    simp only [BitVec.toNat_shiftLeft, BitVec.toNat_setWidth, Nat.shiftLeft_eq]
    omega
  have shiftC : (c.setWidth 24 <<< 16).toNat = 2 ^ 16 * c.toNat := by
    simp only [BitVec.toNat_shiftLeft, BitVec.toNat_setWidth, Nat.shiftLeft_eq]
    omega
  rw [u24OfBytes, BitVec.toNat_or, BitVec.toNat_or, shiftB, shiftC, BitVec.toNat_setWidth_of_le (by omega), low, high]
  omega

/-- R96: a length field is sent as the very bytes it was assembled from. -/
theorem bytesOfU24_u24OfBytes (a b c : Byte) : bytesOfU24 (u24OfBytes a b c) = [a, b, c] := by
  have h := toNat_u24OfBytes a b c
  have ha := a.isLt
  have hb := b.isLt
  have hc := c.isLt
  simp only [bytesOfU24, List.cons.injEq, and_true, ← BitVec.toNat_inj, BitVec.extractLsb'_toNat,
    Nat.shiftRight_eq_div_pow, h]
  omega

/-! ### The decoder, by the number of bytes that follow the opcode -/

/-- R92, R95, R96: an opcode and as many arguments as it takes are the encoding of a well-formed command, and the decoder
reads that command from them, whatever follows. -/
theorem decode_of_args {op : Byte} {args : List Byte} (h : args.length = fixedArgs op) :
    ∃ i : Instr, i.wf = true ∧ encode i = op :: args ∧ ∀ rest, decode (op :: (args ++ rest)) = .ok (i, rest) := by
  by_cases h0 : fixedArgs op = 0
  · obtain rfl := List.length_eq_zero_iff.mp (h.trans h0)
    obtain ⟨i, hi⟩ := Option.isSome_iff_exists.mp (decodeOpcode_isSome op h0)
    obtain ⟨hwf, hop, hargs⟩ := decodeOpcode_spec op i hi h0
    refine ⟨i, hwf, by rw [encode, hop, hargs], fun rest => ?_⟩
    obtain ⟨j, hj, hd⟩ := decode_f0 h0 rest
    cases hi.symm.trans hj
    exact hd
  · rcases opcode_of_fixedArgs_ne_zero h0 with rfl | rfl | rfl
    · obtain ⟨a, rfl⟩ := List.length_eq_one_iff.mp h
      exact ⟨.sBustype a, rfl, rfl, decode_sBustype a⟩
    · match args, h with
      | [c0, c1, c2, r0, r1, r2], _ =>
        refine ⟨.oSpiop (u24OfBytes c0 c1 c2) (u24OfBytes r0 r1 r2), rfl, ?_, decode_oSpiop c0 c1 c2 r0 r1 r2⟩
        simp [encode, Instr.opcode, Instr.argBytes, bytesOfU24_u24OfBytes]
    · obtain ⟨a, rfl⟩ := List.length_eq_one_iff.mp h
      exact ⟨.sPinState a, rfl, rfl, decode_sPinState a⟩

/-- R95, R124: with fewer bytes than the opcode takes, its arguments are missing. -/
theorem decode_of_missing_args {op : Byte} {rest : List Byte} (h : rest.length < fixedArgs op) :
    decode (op :: rest) = .error .missingArguments := by
  rcases opcode_of_fixedArgs_ne_zero (Nat.ne_zero_of_lt h) with rfl | rfl | rfl
  · match rest, h with
    | [], _ => rfl
  · match rest, h with
    | [], _ | [_], _ | [_, _], _ | [_, _, _], _ | [_, _, _, _], _ | [_, _, _, _, _], _ => rfl
  · match rest, h with
    | [], _ => rfl

/-- R94, R95: with at least as many bytes as the opcode takes, the decoder takes exactly those, and they are a well-formed
command's. -/
theorem decode_of_enough_args {op : Byte} {bs : List Byte} (h : fixedArgs op ≤ bs.length) :
    ∃ i : Instr, i.wf = true ∧ encode i = op :: bs.take (fixedArgs op) ∧
      decode (op :: bs) = .ok (i, bs.drop (fixedArgs op)) := by
  obtain ⟨i, hwf, henc, hdec⟩ := decode_of_args (List.length_take_of_le h)
  exact ⟨i, hwf, henc, by simpa using hdec (bs.drop (fixedArgs op))⟩

/-- R92, R95, R96: an encoded command decodes to the command, whatever follows. -/
theorem Instr.decode_encode_append (i : Instr) (h : i.wf = true) (rest : List Byte) :
    decode (encode i ++ rest) = .ok (i, rest) := by
  obtain ⟨j, _, _, hdec⟩ := decode_of_args (i.length_argBytes h)
  have whole : decode (encode i) = .ok (j, []) := by simpa [encode] using hdec []
  cases (i.decode_encode h).symm.trans whole
  exact hdec rest

/-- Settles O1, by `decode_of_args` on the command's own argument bytes. -/
theorem encodedCommandDecodesBack : Obligations.EncodedCommandDecodesBack :=
  fun i rest h => i.decode_encode_append h rest

/-- Settles O3: too few bytes decode to nothing, and enough of them are split into the encoding and the rest. -/
theorem decodedCommandEncodesBack : Obligations.DecodedCommandEncodesBack := by
  intro bs i rest h
  match bs with
  | [] => cases h
  | op :: bs =>
    rcases Nat.lt_or_ge bs.length (fixedArgs op) with hlt | hle
    · rw [decode_of_missing_args hlt] at h
      cases h
    · obtain ⟨j, hwf, henc, hdec⟩ := decode_of_enough_args hle
      cases hdec.symm.trans h
      exact ⟨hwf, by rw [henc, List.cons_append, List.take_append_drop]⟩

/-- Settles O4, by the number of bytes that follow the opcode. -/
theorem decoderWaitsOnlyForArguments : Obligations.DecoderWaitsOnlyForArguments := by
  refine fun op rest => ⟨decode_of_missing_args, fun h => ?_⟩
  obtain ⟨i, _, henc, hdec⟩ := decode_of_enough_args h
  exact ⟨i, hdec, (List.cons.inj henc).1⟩

/-! ### Frames -/

/-- R101: a well-formed frame is a well-formed command with as many payload bytes as its lengths ask for. -/
theorem Frame.wf_iff (f : Frame) :
    f.wf = true ↔ f.instr.wf = true ∧ f.cmd.length = f.instr.cmdLength ∧ f.data.length = f.instr.dataLength := by
  simp [Frame.wf, and_assoc]

/-- R99, R177: the bytes of a well-formed frame are as many as the rule gives. -/
theorem Frame.length_bytes {f : Frame} (h : f.wf = true) : f.bytes.length = f.instr.frameLength := by
  obtain ⟨_, hcmd, hdata⟩ := f.wf_iff.mp h
  simp only [Frame.bytes, encode, List.length_append, List.length_cons, hcmd, hdata, Instr.frameLength]
  omega

/-- R99: the frame length of `O_SPIOP`, written out. -/
theorem Instr.frameLength_oSpiop (cl rl : U24) :
    (Instr.oSpiop cl rl).frameLength = 7 + cl.toNat + (if rl = 0#24 then cl.toNat else 0) := rfl

/-- R99, R101: the bytes of a well-formed frame decode to the frame, whatever follows. -/
theorem Frame.decodeFrame_bytes_append {f : Frame} (h : f.wf = true) (rest : List Byte) :
    decodeFrame (f.bytes ++ rest) = .ok (f, rest) := by
  obtain ⟨hinstr, hcmd, hdata⟩ := f.wf_iff.mp h
  have hdec : decode (f.bytes ++ rest) = .ok (f.instr, f.cmd ++ (f.data ++ rest)) := by
    simpa [Frame.bytes] using f.instr.decode_encode_append hinstr (f.cmd ++ (f.data ++ rest))
  have enough : ¬ (f.cmd ++ (f.data ++ rest)).length < f.cmd.length + f.data.length := by
    simp only [List.length_append]
    omega
  simp only [decodeFrame, hdec, ← hcmd, ← hdata, if_neg enough, List.take_left, List.drop_left, ← List.drop_drop]

/-- Settles O2: the payload is split off by the lengths the decoded command carries. -/
theorem encodedFrameDecodesBack : Obligations.EncodedFrameDecodesBack := fun f rest h =>
  ⟨f.decodeFrame_bytes_append h rest, f.length_bytes h, fun cl rl hi =>
    (f.length_bytes h).trans (by rw [hi, Instr.frameLength_oSpiop])⟩

/-! ### The opcode map -/

/-- R92: the opcodes with a meaning of their own. -/
def listedOpcodes : List Byte :=
  [0x00#8, 0x01#8, 0x02#8, 0x03#8, 0x04#8, 0x05#8, 0x10#8, 0x12#8, 0x13#8, 0x15#8]

/-- R92, R94: of the well-formed commands, those with a listed opcode are the ones that are not `UNKNOWN`. -/
theorem Instr.opcode_mem_listedOpcodes_iff (i : Instr) (h : i.wf = true) :
    i.opcode ∈ listedOpcodes ↔ i.isUnknown = false := by
  cases i with
  | unknown06 op | unknown08 op | unknown16 op | unknown18 op | unknown20 op | unknown40 op | unknown80 op =>
    revert h op
    decide
  | sBustype _ | oSpiop _ _ | sPinState _ => simp [Instr.opcode, Instr.isUnknown, listedOpcodes]
  | _ => decide

/-- R94, R101: every `UNKNOWN` command goes by that name. -/
theorem Instr.mnemonic_of_isUnknown {i : Instr} (h : i.isUnknown = true) : i.mnemonic = "UNKNOWN" := by
  cases i with
  | unknown06 _ | unknown08 _ | unknown11 | unknown14 | unknown16 _ | unknown18 _ | unknown20 _ | unknown40 _
  | unknown80 _ => rfl
  | _ => cases h

/-- R130, R246: the action of every `UNKNOWN` command is the protocol error. -/
theorem Machine.exec_of_isUnknown {i : Instr} (h : i.isUnknown = true) (s : Machine.State) :
    Machine.exec i s = .next s.protocolError := by
  cases i with
  | unknown06 _ | unknown08 _ | unknown11 | unknown14 | unknown16 _ | unknown18 _ | unknown20 _ | unknown40 _
  | unknown80 _ => rfl
  | _ => cases h

/-- R92, R95: an opcode that is not listed takes no argument. -/
theorem fixedArgs_of_not_mem_listedOpcodes {op : Byte} (h : op ∉ listedOpcodes) : fixedArgs op = 0 := by
  by_contra h0
  rcases opcode_of_fixedArgs_ne_zero h0 with rfl | rfl | rfl <;> exact absurd (by decide) h

/-- R95: no opcode takes more than six arguments. -/
theorem fixedArgs_le_six (op : Byte) : fixedArgs op ≤ 6 := by
  unfold fixedArgs
  split_ifs <;> omega

/-- R94, R95: six bytes after an opcode are enough, whichever it is. -/
theorem decode_of_six_args (op : Byte) :
    ∃ (i : Instr) (rest : List Byte), i.wf = true ∧ i.opcode = op ∧
      decode (op :: List.replicate 6 0x00#8) = .ok (i, rest) := by
  obtain ⟨i, hwf, henc, hdec⟩ := decode_of_enough_args (bs := List.replicate 6 0x00#8) (fixedArgs_le_six op)
  exact ⟨i, _, hwf, (List.cons.inj henc).1, hdec⟩

/-- Settles O5: an unlisted opcode is a whole command by itself, and its command is of an `UNKNOWN` row. -/
theorem unlistedOpcodeIsUnknown : Obligations.UnlistedOpcodeIsUnknown := by
  refine ⟨fun op rest (hop : op ∉ listedOpcodes) => ?_, fun op => ?_⟩
  · obtain ⟨i, hwf, henc, hdec⟩ := decode_of_args (args := []) (fixedArgs_of_not_mem_listedOpcodes hop).symm
    obtain rfl : i.opcode = op := (List.cons.inj henc).1
    have unknown : i.isUnknown = true := by
      rwa [i.opcode_mem_listedOpcodes_iff hwf, Bool.not_eq_false] at hop
    exact ⟨i, hdec rest, i.mnemonic_of_isUnknown unknown, Machine.exec_of_isUnknown unknown⟩
  · obtain ⟨i, rest, _, _, hdec⟩ := decode_of_six_args op
    exact ⟨i, rest, hdec⟩

/-- R92, R94: with six bytes after it, an opcode decodes to a command that is not `UNKNOWN` exactly when it is listed. -/
theorem exists_decode_known_iff (op : Byte) :
    (∃ i rest, decode (op :: List.replicate 6 0x00#8) = .ok (i, rest) ∧ i.isUnknown = false) ↔ op ∈ listedOpcodes := by
  obtain ⟨i, rest, hwf, rfl, hdec⟩ := decode_of_six_args op
  rw [i.opcode_mem_listedOpcodes_iff hwf]
  constructor
  · rintro ⟨j, _, hj, known⟩
    cases hdec.symm.trans hj
    exact known
  · exact fun known => ⟨i, rest, hdec, known⟩

/-- R92, R212: the bits that are set in the capability bitmap are those of the listed opcodes. -/
theorem cmdmap_bit_iff (op : Byte) :
    (Machine.cmdmap.getD (op.toNat / 8) 0x00#8).getLsbD (op.toNat % 8) = true ↔ op ∈ listedOpcodes := by
  revert op
  decide

/-- Settles O15: both sides say that the opcode is listed. -/
theorem capabilityBitmapIsTheOpcodeMap : Obligations.CapabilityBitmapIsTheOpcodeMap := by
  refine ⟨rfl, fun n => ?_⟩
  have bit := cmdmap_bit_iff (BitVec.ofNat 8 n.val)
  rw [BitVec.toNat_ofNat, Nat.mod_eq_of_lt n.isLt] at bit
  exact bit.trans (exists_decode_known_iff _).symm

/-- Settles O6, by the number of a length field and the bytes of one. -/
theorem lengthFieldAssembly : Obligations.LengthFieldAssembly :=
  ⟨fun a b c => ⟨rfl, toNat_u24OfBytes a b c⟩, fun v => ⟨_, _, _, u24OfBytes_extract v⟩,
    fun a0 a1 a2 a3 a4 a5 => decode_oSpiop a0 a1 a2 a3 a4 a5 [], by decide⟩

/-- Settles O7: each frame is the encoding of its command and the bytes that follow. -/
theorem sampleFramesDecode : Obligations.SampleFramesDecode :=
  ⟨Instr.decode_encode .nop rfl,
    Instr.decode_encode_append .qCmdmap rfl [0xAA#8],
    Instr.decode_encode .syncnop rfl,
    decode_sBustype 0x09#8 [],
    decode_sPinState 0x15#8 [],
    Instr.decode_encode_append (.oSpiop 0x000004#24 0x010010#24) rfl [0x03#8],
    Instr.decode_encode (.unknown08 0x09#8) rfl,
    Instr.decode_encode (.unknown80 0xFF#8) rfl⟩

end Sys2Proof

/-! PROOFS of the statements about the dispatcher (spec/40_dispatcher.md): what its own commands queue, what the fetching steps
do, that every command without a transaction is answered with exactly its reply, and which phases follow which. -/

namespace Sys2Proof.Machine

/-! ### The commands' actions -/

/-- Settles O8, by the action of every command. -/
theorem nopAndSyncnopActions : Obligations.NopAndSyncnopActions := fun s =>
  ⟨exec_eq .nop s, exec_eq .syncnop s⟩

/-- Settles O9: the reply of the opcode map is the one of the rule. -/
theorem setBustypeAction : Obligations.SetBustypeAction := fun s a0 => exec_eq (.sBustype a0) s

/-- Settles O10. -/
theorem setPinStateAction : Obligations.SetPinStateAction := fun s a0 => exec_eq (.sPinState a0) s

/-- Settles O13: each of the nine rows is an `UNKNOWN` command, so its action is the protocol error. -/
theorem unknownActions : Obligations.UnknownActions := by
  intro s op i hi
  have unknown : i.isUnknown = true := by
    simp only [List.mem_cons, List.not_mem_nil, or_false] at hi
    rcases hi with rfl | rfl | rfl | rfl | rfl | rfl | rfl | rfl | rfl <;> rfl
  exact exec_of_isUnknown unknown s

/-! ### The decode table -/

/-- R94, R130: the reply of every `UNKNOWN` command is one `NAK`. -/
theorem replyBytes_of_isUnknown (p : Params) {i : Instr} (h : i.isUnknown = true) : replyBytes p i = [0x15#8] := by
  cases i with
  | unknown06 _ | unknown08 _ | unknown11 | unknown14 | unknown16 _ | unknown18 _ | unknown20 _ | unknown40 _
  | unknown80 _ => rfl
  | _ => cases h

/-- R121, R130: the decode table answers an opcode that is not listed with one `NAK`. -/
theorem opcodeReply_of_not_mem_listedOpcodes (p : Params) {op : Byte} (h : op ∉ listedOpcodes) :
    opcodeReply p op = [0x15#8] := by
  simp only [listedOpcodes, List.mem_cons, List.not_mem_nil, or_false, not_or] at h
  simp [opcodeReply, h]

/-- R92, R121: of a command without arguments, the reply of the opcode map is the one the decode table queues. -/
theorem replyBytes_eq_opcodeReply (p : Params) {i : Instr} (h : i.wf = true) (h0 : fixedArgs i.opcode = 0) :
    replyBytes p i = opcodeReply p i.opcode := by
  cases hu : i.isUnknown with
  | true =>
    have unlisted : i.opcode ∉ listedOpcodes := by simp [i.opcode_mem_listedOpcodes_iff h, hu]
    rw [replyBytes_of_isUnknown p hu, opcodeReply_of_not_mem_listedOpcodes p unlisted]
  | false =>
    cases i with
    | nop | qIface | qCmdmap | qPgmname | qSerbuf | qBustype | syncnop => rfl
    | sBustype _ | oSpiop _ _ | sPinState _ => cases h0
    | _ => cases hu

/-- R95: `O_SPIOP` takes arguments. -/
theorem ne_oSpiop_of_fixedArgs {i : Instr} (h0 : fixedArgs i.opcode = 0) (cl rl : U24) : i ≠ .oSpiop cl rl := by
  rintro rfl
  cases h0

/-- R22: no command's action writes `op`. -/
theorem regsAfter_op (p : Params) (i : Instr) (r : Regs) : (regsAfter p i r).op = r.op := by
  cases i <;> rfl

/-! ### Fetching -/

/-- Settles O16: an opcode with arguments leaves them due, and one without is a whole command that acts at once. -/
theorem opcodeStepFollowsTable : Obligations.OpcodeStepFollowsTable := by
  refine fun s hp => ⟨fun ht => step_of_tin_nil ht (by simp [hp]), fun op rest ht => ?_⟩
  by_cases h0 : fixedArgs op = 0
  · obtain ⟨h2, h3, h5⟩ := (fixedArgs_eq_zero_iff op).mp h0
    obtain ⟨i, hwf, henc, hdec⟩ := decode_of_args (args := []) h0.symm
    obtain rfl : i.opcode = op := (List.cons.inj henc).1
    have hs := (step_opcode_whole hp ht (hdec [])).trans (exec_eq i _)
    refine ⟨_, hs, rfl, rfl, regsAfter_op _ i _, rfl, rfl, rfl, rfl, rfl, by simp [h2, h5], by simp [h3],
      fun _ _ _ => ⟨rfl, ?_, regsAfter_after _ (ne_oSpiop_of_fixedArgs h0) _⟩⟩
    rw [← replyBytes_eq_opcodeReply s.params hwf h0]
    exact regsAfter_reply _ i _
  · refine ⟨_, step_opcode_with_args hp ht h0, rfl, rfl, rfl, rfl, rfl, rfl, rfl, rfl, ?_, ?_, fun h2 h3 h5 => ?_⟩
    · rintro (rfl | rfl) <;> exact ⟨rfl, rfl, rfl⟩
    · rintro rfl
      exact ⟨rfl, rfl, rfl⟩
    · exact absurd ((fixedArgs_eq_zero_iff op).mpr ⟨h2, h3, h5⟩) h0

/-- Settles O17, by whether the argument taken is the last one. -/
theorem argumentStep : Obligations.ArgumentStep := by
  refine fun s op args m hp ho ha hc => ⟨fun ht => step_of_tin_nil ht (by simp [hp]), fun a rest ht => ⟨fun hm => ?_, ?_⟩⟩
  · exact step_arg_more hp ho ha hc (Nat.ne_of_gt hm) ht
  · rintro i rfl hd
    exact step_last_arg hp ho ha hc ht hd

/-! ### A command served by the engine alone -/

/-- R122: the arguments due are taken, one in each step, and the command acts in the last of these steps. -/
theorem runFor_args {op : Byte} {i : Instr} {rest : List Byte} :
    ∀ (bs args : List Byte) (s : State), bs ≠ [] → s.phase = .arg → s.regs.op = some op → s.regs.args = some args →
    s.regs.argc = some bs.length → s.tin = bs ++ rest → decode (op :: (args ++ bs)) = .ok (i, []) →
    runFor bs.length s = .next { s with
      phase := .reply
      regs := regsAfter s.params i { s.regs with args := some (args ++ bs), argc := some 0 }
      tin := rest
      trace := s.trace ++ bs.map .get }
  | [], _, _, hne, _, _, _, _, _, _ => absurd rfl hne
  | [a], args, s, _, hp, ho, ha, hc, ht, hd =>
    runFor_next 0 ((step_last_arg hp ho ha hc ht hd).trans (exec_eq i _))
  | a :: b :: bs, args, s, _, hp, ho, ha, hc, ht, hd => by
    have hs := step_arg_more hp ho ha hc (by simp) ht
    refine (runFor_next _ hs).trans ((runFor_args (b :: bs) (args ++ [a]) _ (by simp) (by exact hp) (by exact ho) rfl rfl
      rfl (by simpa using hd)).trans ?_)
    simp

/-- R120 to R122: the bytes of a command are taken, one in each step, and the command acts in the last of these steps. -/
theorem runFor_command {i : Instr} {s : State} {rest : List Byte} (hi : i.wf = true) (hp : s.phase = .awaitOpcode)
    (ht : s.tin = encode i ++ rest) :
    ∃ regs, runFor (encode i).length s = .next { s with
      phase := .reply
      regs := regsAfter s.params i regs
      tin := rest
      trace := s.trace ++ (encode i).map .get } := by
  have hlen := i.length_argBytes hi
  have hd := i.decode_encode hi
  rw [encode] at ht hd ⊢
  by_cases h0 : fixedArgs i.opcode = 0
  · rw [List.length_eq_zero_iff.mp (hlen.trans h0)] at ht hd ⊢
    exact ⟨_, runFor_next 0 ((step_opcode_whole hp ht hd).trans (exec_eq i _))⟩
  · have hs := step_opcode_with_args hp ht h0
    have hne : i.argBytes ≠ [] := fun hnil => h0 (by rw [← hlen, hnil]; rfl)
    refine ⟨{ Regs.unwritten with op := some i.opcode, args := some i.argBytes, argc := some 0 },
      (runFor_next _ hs).trans ((runFor_args i.argBytes [] _ hne rfl rfl rfl (congrArg some hlen.symm) rfl hd).trans ?_)⟩
    simp

/-- R123: a queued reply is put to a transport that accepts, one byte in each step, and the last of these steps enters the
phase that `after` names. -/
theorem runFor_reply {a : After} : ∀ (bs : List Byte) (s : State), bs ≠ [] → s.phase = .reply →
    s.regs.reply = some bs → s.regs.after = some a → s.ready = true →
    runFor bs.length s = .next { s with
      phase := a.toPhase
      regs := { s.regs with reply := some [] }
      tout := s.tout ++ bs
      trace := s.trace ++ bs.map .put }
  | [], _, hne, _, _, _, _ => absurd rfl hne
  | [b], s, _, hp, hr, ha, hy => runFor_next 0 (step_last_reply hp hr ha hy)
  | b :: c :: bs, s, _, hp, hr, ha, hy => by
    have hs := step_reply hp hr ha
    rw [if_pos hy] at hs
    refine (runFor_next _ hs).trans ((runFor_reply (c :: bs) _ (by simp) rfl rfl (by exact ha) (by exact hy)).trans ?_)
    simp

/-- Settles O21: the run that takes the command's bytes, and then the one that puts its reply. -/
theorem shortCommandIsServed : Obligations.ShortCommandIsServed := by
  intro s i rest hi hshort hp hy ht
  obtain ⟨regs, htake⟩ := runFor_command hi hp ht
  rw [← length_replyBytes s.params hshort]
  exact ⟨_, (runFor_add _ _ htake).trans (runFor_reply (replyBytes s.params i) _ (replyBytes_ne_nil _ i) rfl
    (regsAfter_reply _ i regs) (regsAfter_after _ hshort regs) hy), rfl, rfl, rfl, rfl, rfl, rfl, hy, rfl⟩

/-! ### The phases that follow -/

/-- Settles O46, by the cases of what a step can do (`step_effect`): one that performs an event names its successor and records
no fault, and one that raises a fault says from which phase. -/
theorem phaseTransitions : Obligations.PhaseTransitions := by
  intro s t hs
  cases step_effect hs with
  | hold => exact .inl rfl
  | fault f why => exact .inr (.inr ⟨rfl, by simpa using why⟩)
  | get _ _ _ _ _ _ next | put _ _ _ _ _ next | writeCtrl _ _ _ _ _ _ next | writeCmdFifo _ _ _ _ next
  | writeDataFifo _ _ _ _ next | readStatus _ _ _ next _ _ _ | readData _ _ _ next =>
    exact .inr (.inl ⟨by simp, rfl, next⟩)

end Sys2Proof.Machine

/-! PROOFS of the statements about the SPI transaction (spec/41_spi_transaction.md): operations are serialised, the action of
`O_SPIOP` and the steps of the engine's phases, how the polls end, and the exact events of whole operations. -/

namespace Sys2Proof.Machine

/-! ### Operations are serialised -/

/-- R278: the phases between operations and until an operation's control write. -/
def betweenPhases : List Phase := [.awaitOpcode, .arg, .reply, .spiCtrl]

/-- R278, by what a phase asks of the register file. -/
theorem State.serialised_iff {s : State} : s.serialised ↔ (s.phase ∈ betweenPhases → leftIdle s.params s.trace) := by
  unfold State.serialised betweenPhases
  cases s.phase <;> simp

/-- R278: an event that accesses no register leaves the register file as it was left. -/
theorem leftIdle_append_of_register_eq_none {p : Params} {tr : List Event} {e : Event} (he : e.register = none) :
    leftIdle p (tr ++ [e]) ↔ leftIdle p tr := by
  simp [leftIdle, registerEvents, he]

/-- R278: a status read leaves the register file idle exactly when it shows `busy = false`. -/
theorem leftIdle_append_rdStatus {p : Params} {tr : List Event} {v : Word} :
    leftIdle p (tr ++ [.rdStatus v]) ↔ p.isBusy v = false := by
  simp [leftIdle, registerEvents, Event.register]

/-- R132, R179: a phase between operations is entered from another, or, as `AWAIT_OPCODE`, from the completion poll. -/
theorem Phase.mem_betweenPhases_of_successor {p q : Phase} (next : q ∈ p.successors) (hq : q ∈ betweenPhases) :
    p ∈ [Phase.awaitOpcode, .arg, .reply] ∨ p = .busyPoll ∧ q = .awaitOpcode := by
  cases p <;> grind [Phase.successors, betweenPhases]

/-- R278: an event that accesses no register, of a phase other than the completion poll, keeps the register file idle between
operations. -/
theorem State.serialised_of_register_eq_none {s t : State} {e : Event} (h : s.serialised) (hq : t.params = s.params)
    (ht : t.trace = s.trace ++ [e]) (he : e.register = none) (next : t.phase ∈ s.phase.successors)
    (hp : s.phase ≠ .busyPoll) : t.serialised := by
  refine State.serialised_iff.mpr fun hbetween => ?_
  rw [hq, ht, leftIdle_append_of_register_eq_none he]
  rcases Phase.mem_betweenPhases_of_successor next hbetween with hs | ⟨hs, _⟩
  · exact State.serialised_iff.mp h (by simp only [betweenPhases]; grind)
  · exact absurd hs hp

/-- R132, R179: of any phase that is not between operations and not the completion poll, no successor is between operations. -/
theorem State.serialised_of_successor {t : State} {p : Phase} (next : t.phase ∈ p.successors)
    (hp : p ∉ [Phase.awaitOpcode, .arg, .reply, .busyPoll]) : t.serialised := by
  refine State.serialised_iff.mpr fun hbetween => ?_
  rcases Phase.mem_betweenPhases_of_successor next hbetween with hs | ⟨rfl, _⟩
  · grind
  · simp at hp

/-- Settles O50, by the cases of what a step can do (`step_effect`): a byte taken or put is no register-file event, and the only
register-file event that leads between operations is the completion poll's last read, which shows not busy. -/
theorem operationsAreSerialised : Obligations.OperationsAreSerialised := by
  intro s t h hs
  cases step_effect hs with
  | hold => exact h
  | fault f _ => exact trivial
  | get b rest regs p _ here next =>
    exact State.serialised_of_register_eq_none h rfl rfl rfl next fun hp => by simp [hp] at here
  | put b regs p _ here next =>
    exact State.serialised_of_register_eq_none h rfl rfl rfl next fun hp => by simp [hp] at here
  | writeCtrl m burstLen cmdLen regs p here next => exact State.serialised_of_successor next (by simp [here])
  | writeCmdFifo b regs p here next => exact State.serialised_of_successor next (by simp [here])
  | writeDataFifo w regs p here next => exact State.serialised_of_successor next (by simp [here])
  | readStatus regs p here next capacity data idle =>
    refine State.serialised_iff.mpr fun hbetween => leftIdle_append_rdStatus.mpr ?_
    rcases Phase.mem_betweenPhases_of_successor next hbetween with hp | ⟨_, hp⟩
    · grind
    · exact idle hp
  | readData regs p here next => exact State.serialised_of_successor next (by simp [here])

/-! ### The action of `O_SPIOP`, and its acknowledgment -/

/-- Settles O14. -/
theorem spiopAction : Obligations.SpiopAction := by
  intro s cl rl
  rw [exec_eq]
  simp [regsAfter, burstMode, burstLength, ack]

/-- Settles O23, by its two steps: the last argument's, and the one that puts the acknowledgment. -/
theorem earlyAcknowledgment : Obligations.EarlyAcknowledgment := by
  rintro s c0 c1 c2 r0 r1 r2 rest cl rl hp ho ha hc ht hy rfl rfl
  have hacts := (step_last_arg hp ho ha hc ht (decode_oSpiop c0 c1 c2 r0 r1 r2 [])).trans (exec_eq _ _)
  refine ⟨_, _, hacts, rfl, rfl, rfl, rfl, rfl, rfl, fun h => ⟨congrArg some (if_neg h), congrArg some (if_neg h)⟩,
    fun h => ⟨congrArg some (if_pos h), congrArg some (if_pos h)⟩, step_last_reply rfl rfl rfl hy, rfl, rfl, by simp [ack],
    rfl, rfl, rfl, rfl, rfl, rfl⟩

/-! ### The steps of the engine's phases -/

/-- R165, R166: the phase after the last command byte, by the direction and whether a byte is left to move. -/
theorem burstPhase_eq (mode : Mode) (rem : U24) : burstPhase mode rem =
    if mode = .tx ∧ 0#24 < rem then .txPoll else if mode = .rx then .rxPoll else .busyPoll := by
  cases mode with
  | rx => simp [burstPhase]
  | tx =>
    by_cases h : rem = 0#24
    · simp [burstPhase, h]
    · simp [burstPhase, h, show 0#24 < rem by bv_omega]

/-- R25, R35: the mode field of a direction. -/
theorem Mode.field_eq (mode : Mode) : mode.field = if mode = .tx then 3#3 else 5#3 := by
  cases mode <;> rfl

/-- R181: a length past the field's width overflows it. -/
theorem ctrlOverflows_eq_true {p : Params} {len cl : U24} {k : Nat} (hk : p.ctrlLenBits = some k)
    (h : 2 ^ k ≤ len.toNat ∨ 2 ^ k ≤ cl.toNat) : ctrlOverflows p len cl = true := by
  simpa [ctrlOverflows, hk] using h

/-- R180: the command FIFO is full exactly when its given depth has been written. -/
theorem cmdFifoFull_iff {p : Params} {cl c : U24} :
    cmdFifoFull p cl c = true ↔ p.cmdFifoDepth = some (cl.toNat - c.toNat) := by
  unfold cmdFifoFull
  split
  · next h => simp [h]
  · next d h => simp [h, eq_comm]

/-- R28, R169: no byte is left after a word exactly when the word carries them all. -/
theorem remAfter_eq_zero_iff {rem : U24} {n : Nat} (h : n ≤ rem.toNat) :
    remAfter rem n = 0#24 ↔ ¬ 0 < rem.toNat - n := by
  rw [← toNat_remAfter h]
  bv_omega

section
variable {s : State}

/-- R181: a length that does not fit faults before the control write. -/
theorem step_spiCtrl_overflow {mode : Mode} {len cl : U24} (hp : s.phase = .spiCtrl) (hm : s.regs.mode = some mode)
    (hl : s.regs.len = some len) (hc : s.regs.cl = some cl) (hover : ctrlOverflows s.params len cl = true) :
    step s = .next (s.raise .ctrlFieldOverflow) := by
  have hs : step s = .next (stepSpiCtrl s) := by simp only [step, hp]
  rcases stepSpiCtrl_cases s with ⟨_, _, _, _, hl', hc', ⟨_, h'⟩ | ⟨hfit, _⟩⟩ | ⟨hn, _⟩
  · exact hs.trans (congrArg _ h')
  · cases hl.symm.trans hl'
    cases hc.symm.trans hc'
    simp [hover] at hfit
  · simp [hm, hl, hc] at hn

/-- R180: a command byte past the FIFO's depth faults before its push. -/
theorem step_cmdPut_overrun {b : Byte} {c cl rem : U24} {mode : Mode} (hp : s.phase = .cmdPut)
    (hb : s.regs.cbyte = some b) (hc : s.regs.cmdRem = some c) (hl : s.regs.cl = some cl)
    (hm : s.regs.mode = some mode) (hr : s.regs.rem = some rem) (hfull : cmdFifoFull s.params cl c = true) :
    step s = .next (s.raise .cmdFifoOverrun) := by
  have hs : step s = .next (stepCmdPut s) := by simp only [step, hp]
  rcases stepCmdPut_cases s with ⟨_, _, _, _, _, _, hc', hl', _, _, ⟨_, h'⟩ | ⟨hfit, _⟩⟩ | ⟨hn, _⟩
  · exact hs.trans (congrArg _ h')
  · cases hc.symm.trans hc'
    cases hl.symm.trans hl'
    simp [hfull] at hfit
  · simp [hb, hc, hl, hm, hr] at hn

end

/-- Settles O24: the fault of lengths that do not fit, and the control write of lengths that do. -/
theorem controlStep : Obligations.ControlStep := by
  refine fun s mode len cl hp hm hl hc => ⟨fun ⟨k, hk, hover⟩ => ?_, fun hfit => ?_⟩
  · exact step_spiCtrl_overflow hp hm hl hc (ctrlOverflows_eq_true hk hover)
  · have hzero : cl = 0#24 ↔ ¬ 0#24 < cl := by bv_omega
    rw [step_spiCtrl hp hm hl hc (ctrlOverflows_eq_false hfit), Mode.field_eq, burstPhase_eq]
    simp only [hzero, ite_not]

/-- Settles O25: the step of `CMD_GET`, and of `CMD_PUT` by whether the command FIFO is full. -/
theorem commandStreaming : Obligations.CommandStreaming := by
  refine ⟨fun s hp => ⟨fun ht => step_of_tin_nil ht (by simp [hp]), fun b rest ht => step_cmdGet hp ht⟩,
    fun s b c cl rem mode hp hb hc _ _ hl hm hr => ⟨fun hd => ?_, fun hd => ?_⟩⟩
  · exact step_cmdPut_overrun hp hb hc hl hm hr (cmdFifoFull_iff.mpr hd)
  · have hlast : c - 1#24 = 0#24 ↔ ¬ c ≠ 1#24 := by bv_omega
    have hroom : cmdFifoFull s.params cl c = false := Bool.eq_false_iff.mpr (mt cmdFifoFull_iff.mp hd)
    rw [step_cmdPut hp hb hc hl hm hr hroom, burstPhase_eq]
    simp only [hlast, ite_not]

/-- Settles O28. -/
theorem transmitPush : Obligations.TransmitPush := by
  intro s w rem n hp hw hr hn hle
  refine ⟨remAfter rem n, toNat_remAfter hle, ?_⟩
  rw [step_txPush hp hw hr hn]
  simp only [remAfter_eq_zero_iff hle, ite_not]

/-- Settles O29: the step of `RX_POLL` for the status that the SPI master scripts. -/
theorem receivePoll : Obligations.ReceivePoll := by
  intro s v vs hp hv
  obtain ⟨hnext, hread⟩ := State.readStatus_scripted hv
  rw [step_rxPoll hp, hnext, hread]

/-- Settles O32: the step of `BUSY_POLL` for the status that the SPI master scripts. -/
theorem busyPoll : Obligations.BusyPoll := by
  intro s v vs hp hv
  obtain ⟨hnext, hread⟩ := State.readStatus_scripted hv
  rw [step_busyPoll hp, hnext, hread]
  cases (s.params.decodeStatus v).busy <;> rfl

/-! ### Polls that spin -/

/-- The state after `k` status reads and nothing else. -/
def State.afterReads (s : State) : Nat → State
  | 0 => s
  | k + 1 => (s.afterReads k).readStatus

section
variable (s : State) (k : Nat)

@[simp] theorem State.afterReads_phase : (s.afterReads k).phase = s.phase := by
  induction k with
  | zero => rfl
  | succ k ih => exact ih

@[simp] theorem State.afterReads_regs : (s.afterReads k).regs = s.regs := by
  induction k with
  | zero => rfl
  | succ k ih => exact ih

@[simp] theorem State.afterReads_params : (s.afterReads k).params = s.params := by
  induction k with
  | zero => rfl
  | succ k ih => exact ih

@[simp] theorem State.afterReads_tin : (s.afterReads k).tin = s.tin := by
  induction k with
  | zero => rfl
  | succ k ih => exact ih

@[simp] theorem State.afterReads_tout : (s.afterReads k).tout = s.tout := by
  induction k with
  | zero => rfl
  | succ k ih => exact ih

/-- R43: the value of the next status read is the first of those ahead. -/
theorem State.statusAhead_zero : s.statusAhead 0 = s.nextStatus := by
  unfold State.statusAhead State.nextStatus
  cases s.spi.statusNext <;> simp

/-- R43, R63: a status read uses up the first of the values ahead. -/
theorem State.statusAhead_readStatus : s.readStatus.statusAhead k = s.statusAhead (k + 1) := by
  cases h : s.spi.statusNext with
  | nil =>
    rw [(State.readStatus_free h).2]
    simp [State.statusAhead, h, Nat.add_comm, Nat.add_left_comm]
  | cons v vs =>
    rw [(State.readStatus_scripted h).2]
    simp [State.statusAhead, h]

/-- R43, R63: `k` status reads use up the first `k` of the values ahead. -/
theorem State.statusAhead_afterReads (i : Nat) : (s.afterReads k).statusAhead i = s.statusAhead (k + i) := by
  induction k generalizing i with
  | zero => rw [Nat.zero_add, State.afterReads]
  | succ k ih => rw [State.afterReads, State.statusAhead_readStatus, ih, Nat.add_right_comm, Nat.add_assoc]

@[simp] theorem State.afterReads_nextStatus : (s.afterReads k).nextStatus = s.statusAhead k := by
  rw [← State.statusAhead_zero, State.statusAhead_afterReads, Nat.add_zero]

/-- R242: every read of a poll is an event. -/
@[simp] theorem State.afterReads_trace :
    (s.afterReads k).trace = s.trace ++ (List.range k).map (fun i => .rdStatus (s.statusAhead i)) := by
  induction k with
  | zero => simp [State.afterReads]
  | succ k ih => simp [State.afterReads, ih, List.range_succ]

end

section
variable {s : State} {k : Nat} {next : Nat → State} {test : Word → Bool} {pass : Bool}

/-- R242: a poll whose next `k` reads fail spins for `k` steps, each a status read and nothing else. -/
theorem runFor_spin
    (poll : ∀ i, step (s.afterReads i) =
      .next (if test (s.statusAhead i) = pass then next i else (s.afterReads i).readStatus))
    (fails : ∀ i < k, test (s.statusAhead i) = !pass) : runFor k s = .next (s.afterReads k) := by
  induction k with
  | zero => rfl
  | succ k ih =>
    have hspin := ih fun i hi => fails i (Nat.lt_succ_of_lt hi)
    have hread := poll k
    rw [if_neg (by simp [fails k k.lt_succ_self])] at hread
    exact (runFor_add k 1 hspin).trans (runFor_next 0 hread)

/-- R242: the read that passes the poll's test after `k` that fail ends it. -/
theorem runFor_poll
    (poll : ∀ i, step (s.afterReads i) =
      .next (if test (s.statusAhead i) = pass then next i else (s.afterReads i).readStatus))
    (fails : ∀ i < k, test (s.statusAhead i) = !pass) (passes : test (s.statusAhead k) = pass) :
    runFor (k + 1) s = .next (next k) := by
  have hread := poll k
  rw [if_pos passes] at hread
  exact (runFor_add k 1 (runFor_spin poll fails)).trans (runFor_next 0 hread)

end

/-- Settles O42: the poll spins as long as it reads busy, and the read that shows not busy is its last. -/
theorem busySpinEndsAtFirstIdleRead : Obligations.BusySpinEndsAtFirstIdleRead := by
  intro s k hp hbusy
  have poll (i : Nat) := step_busyPoll_eq_ite (s := s.afterReads i) (by simpa using hp)
  simp only [State.afterReads_params, State.afterReads_nextStatus] at poll
  refine ⟨⟨_, runFor_spin poll hbusy, by simpa using hp, by simp⟩, fun hidle => ?_⟩
  have hend := runFor_poll poll hbusy hidle
  exact ⟨_, hend, rfl, by simp, by simp, by simp [List.range_succ]⟩

/-- Settles O43: each poll spins as long as its test fails, and the read that passes it is its last. -/
theorem burstPollsEndAtFirstReadyRead : Obligations.BurstPollsEndAtFirstReadyRead := by
  refine fun s k rem hr => ⟨fun hp hfull hroom => ?_, fun hp hempty hdata => ?_⟩
  · have poll (i : Nat) := step_txPoll_eq_ite (s := s.afterReads i) (by simpa using hp) (by simpa using hr)
    simp only [State.afterReads_params, State.afterReads_nextStatus] at poll
    have hend := runFor_poll poll hfull hroom
    exact ⟨_, hend, rfl, by simp [List.range_succ]⟩
  · have poll (i : Nat) := step_rxPoll_eq_ite (s := s.afterReads i) (by simpa using hp)
    simp only [State.afterReads_params, State.afterReads_nextStatus] at poll
    have hend := runFor_poll poll hempty hdata
    exact ⟨_, hend, rfl, by simp [List.range_succ]⟩

/-! ### Runs of a number of steps that is not counted -/

/-- The engine alone comes from `s` to `t`. -/
def State.runsTo (s t : State) : Prop := ∃ n, runFor n s = .next t

/-- A run goes on by one step. -/
theorem State.runsTo.step {s t u : State} (h : s.runsTo t) (hs : step t = .next u) : s.runsTo u := by
  obtain ⟨n, hn⟩ := h
  exact ⟨n + 1, (runFor_add n 1 hn).trans (runFor_next 0 hs)⟩

/-! ### Chunks and data words -/

/-- R175: the first chunk of a burst is of four bytes, or of all that are left. -/
theorem chunks_of_ne_nil {data : List Byte} (h : data ≠ []) : chunks data = data.take 4 :: chunks (data.drop 4) := by
  match data, h with
  | [a], _ | [a, b], _ | [a, b, c], _ => rfl
  | a :: b :: c :: d :: rest, _ => rfl

/-- R167 to R169: the events of a transmit burst begin with those of its first word. -/
theorem transmitEvents_of_ne_nil (v : Word) {data : List Byte} (h : data ≠ []) :
    transmitEvents v data = (.rdStatus v :: (data.take 4).map .get ++ [.wrDataFifo (packWord (data.take 4))]) ++
      transmitEvents v (data.drop 4) := by
  rw [transmitEvents, chunks_of_ne_nil h, List.flatMap_cons, ← transmitEvents]

/-- R175: a burst with a byte left has one word more than what is left after that word. -/
theorem wordCount_of_pos {k : Nat} (h : 0 < k) : wordCount k = wordCount (k - 4) + 1 := by
  unfold wordCount
  omega

/-- R175: the bytes left after a full or a last word. -/
theorem toNat_remAfter_chunk (rem : U24) : (remAfter rem (chunk rem)).toNat = rem.toNat - 4 := by
  rw [toNat_remAfter (chunk_le rem), chunk]
  omega

/-- R172: the lanes put of a word are its first ones, as many as it carries bytes. -/
theorem map_lane_range_chunk (w : Word) (rem : U24) :
    (List.range (chunk rem)).map (lane w) = (lanes w).take rem.toNat := by
  rw [lanes_eq_map, ← List.map_take, List.take_range, chunk, Nat.min_comm]

/-- R172: the bytes put of a burst begin with the lanes of its first word. -/
theorem take_flatMap_lanes_cons (k : Nat) (w : Word) (ws : List Word) :
    ((w :: ws).flatMap lanes).take k = (lanes w).take k ++ (ws.flatMap lanes).take (k - 4) := by
  rw [List.flatMap_cons, List.take_append]
  rfl

/-! ### The phases of an operation -/

section
variable {s t : State} {cl rl rem : U24} {v : Word} {vs : List Word} {rest : List Byte}

/-- R120 to R123, R161 to R163: the command's bytes are taken and the acknowledgment is put. -/
theorem runFor_acknowledge (hp : s.phase = .awaitOpcode) (hy : s.ready = true)
    (ht : s.tin = encode (.oSpiop cl rl) ++ rest) :
    ∃ regs, runFor 8 s = .next { s with
        phase := .spiCtrl
        regs := regs
        tin := rest
        tout := s.tout ++ [0x06#8]
        trace := s.trace ++ (encode (.oSpiop cl rl)).map .get ++ [.put 0x06#8] } ∧
      regs.cl = some cl ∧ regs.mode = some (burstMode rl) ∧ regs.len = some (burstLength cl rl) := by
  obtain ⟨regs, htake⟩ := runFor_command (i := .oSpiop cl rl) rfl hp ht
  have hput := (runFor_add 7 1 htake).trans (runFor_next 0 (step_last_reply rfl rfl rfl hy))
  exact ⟨_, hput, rfl, rfl, rfl⟩

/-- R166: the command bytes are streamed, and the burst is entered. -/
theorem State.runsTo.commandBytes {mode : Mode} : ∀ {cmd : List Byte} {c : U24} {t : State}, s.runsTo t →
    t.phase = .cmdGet → t.tin = cmd ++ rest → cmd.length = c.toNat → 0#24 < c → c ≤ cl → t.regs.cmdRem = some c →
    t.regs.cl = some cl → t.regs.mode = some mode → t.regs.rem = some rem →
    (∀ d, t.params.cmdFifoDepth = some d → cl.toNat ≤ d) →
    ∃ regs, s.runsTo { t with
        phase := burstPhase mode rem
        regs := regs
        tin := rest
        trace := t.trace ++ commandEvents cmd
        spi := { t.spi with cmdFifo := t.spi.cmdFifo ++ cmd } } ∧
      regs.rem = some rem
  | [], c, _, _, _, _, hlen, hpos, _, _, _, _, _, _ => by
    simp only [List.length_nil] at hlen
    bv_omega
  | b :: cmd, c, t, h, hp, ht, hlen, hpos, hle, hc, hl, hm, hr, hdepth => by
    have hbyte := (h.step (step_cmdGet hp ht)).step
      (step_cmdPut rfl rfl hc hl hm hr (cmdFifoFull_eq_false hpos hle hdepth))
    have hlen' : cmd.length = (c - 1#24).toNat := by
      simp only [List.length_cons] at hlen
      bv_omega
    by_cases hlast : c - 1#24 = 0#24
    · obtain rfl : cmd = [] := List.length_eq_zero_iff.mp (by simp [hlen', hlast])
      rw [if_pos hlast] at hbyte
      exact ⟨{ t.regs with cbyte := some b, cmdRem := some (c - 1#24) }, by simpa [commandEvents] using hbyte, hr⟩
    · rw [if_neg hlast] at hbyte
      obtain ⟨regs, hrest, hrem⟩ := hbyte.commandBytes rfl rfl hlen' (by bv_omega) (by bv_omega) rfl hl hm hr hdepth
      exact ⟨regs, by simpa [commandEvents] using hrest, hrem⟩

/-- R165, R166: the control write, the command bytes, and the burst with all its bytes left to move. -/
theorem State.runsTo.control {cmd : List Byte} (h : s.runsTo t) (hp : t.phase = .spiCtrl) (ht : t.tin = cmd ++ rest)
    (hlen : cmd.length = cl.toNat) (hcl : t.regs.cl = some cl) (hm : t.regs.mode = some (burstMode rl))
    (hl : t.regs.len = some (burstLength cl rl))
    (hbits : ∀ k, t.params.ctrlLenBits = some k → (burstLength cl rl).toNat < 2 ^ k ∧ cl.toNat < 2 ^ k)
    (hdepth : ∀ d, t.params.cmdFifoDepth = some d → cl.toNat ≤ d) :
    ∃ regs, s.runsTo { t with
        phase := pollPhase rl (burstLength cl rl)
        regs := regs
        tin := rest
        trace := t.trace ++ .wrCtrl (burstMode rl).field (burstLength cl rl) cl :: commandEvents cmd
        spi := { t.spi with
          ctrl := ⟨(burstMode rl).field, burstLength cl rl, cl⟩
          cmdFifo := t.spi.cmdFifo ++ cmd } } ∧
      regs.rem = some (burstLength cl rl) := by
  have hctrl := h.step (step_spiCtrl hp hm hl hcl (ctrlOverflows_eq_false hbits))
  rw [← burstPhase_eq_pollPhase]
  by_cases h0 : cl = 0#24
  · obtain rfl : cmd = [] := List.length_eq_zero_iff.mp (by simp [hlen, h0])
    rw [if_pos h0] at hctrl
    exact ⟨_, by simpa [commandEvents, ht] using hctrl, rfl⟩
  · rw [if_neg h0] at hctrl
    obtain ⟨regs, hcmd, hrem⟩ := hctrl.commandBytes rfl ht hlen (by bv_omega) (BitVec.le_refl _) rfl hcl hm rfl hdepth
    exact ⟨regs, by simpa using hcmd, hrem⟩

/-- R168: the bytes of a word are taken, each into its lane. -/
theorem State.runsTo.fill {n : Nat} : ∀ {bs : List Byte} {w : Word} {j : Nat} {t : State}, s.runsTo t → bs ≠ [] →
    t.phase = .txFill → t.tin = bs ++ rest → j + bs.length = n → t.regs.word = some w → t.regs.j = some j →
    t.regs.n = some n →
    s.runsTo { t with
      phase := .txPush
      regs := { t.regs with word := some ((bs.zipIdx j).foldl (fun w p => orLane w p.2 p.1) w), j := some n }
      tin := rest
      trace := t.trace ++ bs.map .get }
  | [], _, _, _, _, hne, _, _, _, _, _, _ => absurd rfl hne
  | [b], w, j, t, h, _, hp, ht, hlen, hw, hj, hn => by
    have hfill := h.step (step_txFill hp hw hj hn ht)
    rw [if_pos (show j + 1 = n from hlen)] at hfill
    simpa [← hlen] using hfill
  | b :: c :: bs, w, j, t, h, _, hp, ht, hlen, hw, hj, hn => by
    have hfill := h.step (step_txFill hp hw hj hn ht)
    simp only [List.length_cons] at hlen
    rw [if_neg (by omega)] at hfill
    simpa using hfill.fill (bs := c :: bs) (by simp) rfl rfl (by simp; omega) rfl rfl hn

/-- R167 to R169: one data word of a transmit burst whose poll shows capacity. -/
theorem State.runsTo.txWord {bs : List Byte} (h : s.runsTo t) (hp : t.phase = .txPoll) (hr : t.regs.rem = some rem)
    (hne : bs ≠ []) (ht : t.tin = bs ++ rest) (hlen : bs.length = chunk rem) (hv : t.spi.statusNext = v :: vs)
    (hroom : t.params.hasCapacity v = true) :
    ∃ regs, s.runsTo { t with
        phase := pollPhase 0#24 (remAfter rem (chunk rem))
        regs := regs
        tin := rest
        trace := t.trace ++ (.rdStatus v :: bs.map .get ++ [.wrDataFifo (packWord bs)])
        spi := { t.spi with statusNext := vs, txFifo := t.spi.txFifo ++ [packWord bs] } } ∧
      regs.rem = some (remAfter rem (chunk rem)) := by
  obtain ⟨hnext, hread⟩ := State.readStatus_scripted hv
  have hpoll := step_txPoll_eq_ite hp hr
  rw [hnext, hread, if_pos hroom] at hpoll
  have hpush := ((h.step hpoll).fill hne rfl ht ((Nat.zero_add _).trans hlen) rfl rfl rfl).step (step_txPush rfl rfl hr rfl)
  rw [foldl_orLane_zero] at hpush
  exact ⟨_, by simpa [pollPhase_tx] using hpush, rfl⟩

/-- R167 to R169, R175: a transmit burst in which every poll shows capacity. -/
theorem State.runsTo.transmit {data : List Byte} (h : s.runsTo t) (hp : t.phase = pollPhase 0#24 rem)
    (hr : t.regs.rem = some rem) (hlen : data.length = rem.toNat) (ht : t.tin = data ++ rest)
    (hv : t.spi.statusNext = List.replicate (wordCount rem.toNat) v ++ vs) (hroom : t.params.hasCapacity v = true) :
    ∃ regs, s.runsTo { t with
      phase := .busyPoll
      regs := regs
      tin := rest
      trace := t.trace ++ transmitEvents v data
      spi := { t.spi with statusNext := vs, txFifo := t.spi.txFifo ++ (chunks data).map packWord } } := by
  induction hk : rem.toNat using Nat.strong_induction_on generalizing t rem data with
  | _ k ih =>
  by_cases h0 : rem = 0#24
  · subst h0
    obtain rfl : data = [] := List.length_eq_zero_iff.mp hlen
    obtain rfl : t.tin = rest := ht
    obtain rfl : t.spi.statusNext = vs := hv
    rw [← show t.phase = .busyPoll from hp]
    exact ⟨t.regs, by simpa [transmitEvents, chunks] using h⟩
  · have hpos : 0 < rem.toNat := by bv_omega
    have hne : data ≠ [] := List.length_pos_iff.mp (by omega)
    have hafter := toNat_remAfter_chunk rem
    rw [pollPhase_tx, if_neg h0] at hp
    rw [wordCount_of_pos hpos, List.replicate_succ, List.cons_append] at hv
    obtain ⟨regs, hword, hr'⟩ := h.txWord (bs := data.take 4) (rest := data.drop 4 ++ rest) hp hr (by simpa using hne)
      (by simpa [← List.append_assoc] using ht) (by simp [chunk, hlen]) hv hroom
    obtain ⟨regs', hrest⟩ := ih _ (by omega) hword rfl hr' (by simp [hlen, hafter]) rfl (by simp [hafter]) hroom rfl
    exact ⟨regs', by simpa [transmitEvents_of_ne_nil v hne, chunks_of_ne_nil hne] using hrest⟩

/-- R172: the lanes of a word are put, from lane `j` on, and the word is counted off. -/
theorem State.runsTo.emit {w : Word} {n left j : Nat} (h : s.runsTo t) (hp : t.phase = .rxEmit) (hy : t.ready = true)
    (hlen : j + (left + 1) = n) (hw : t.regs.word = some w) (hj : t.regs.j = some j) (hn : t.regs.n = some n)
    (hr : t.regs.rem = some rem) :
    s.runsTo { t with
      phase := if remAfter rem n = 0#24 then .busyPoll else .rxPoll
      regs := { t.regs with j := some n, rem := some (remAfter rem n) }
      tout := t.tout ++ (List.range' j (left + 1)).map (lane w)
      trace := t.trace ++ ((List.range' j (left + 1)).map (lane w)).map .put } := by
  induction left generalizing j t with
  | zero =>
    have hput := step_rxEmit hp hw hj hn hr
    rw [if_pos hy] at hput
    simpa [show j + 1 = n from hlen] using h.step hput
  | succ left ih =>
    have hput := step_rxEmit hp hw hj hn hr
    rw [if_pos hy, if_neg (by omega), if_neg (by omega)] at hput
    have hrest := ih (h.step hput) rfl hy (by omega) hw rfl hn rfl
    simpa [List.range'_succ (n := left + 1)] using hrest

/-- R170 to R172: one data word of a receive burst whose poll shows data. -/
theorem State.runsTo.rxWord {w : Word} {ws : List Word} (h : s.runsTo t) (hp : t.phase = .rxPoll) (hy : t.ready = true)
    (hr : t.regs.rem = some rem) (hrl : rl ≠ 0#24) (hpos : 0#24 < rem) (hv : t.spi.statusNext = v :: vs)
    (hw : t.spi.rxWords = w :: ws) (hdata : t.params.hasData v = true) :
    ∃ regs, s.runsTo { t with
        phase := pollPhase rl (remAfter rem (chunk rem))
        regs := regs
        tout := t.tout ++ (lanes w).take rem.toNat
        trace := t.trace ++ .rdStatus v :: .rdDataFifo w :: ((lanes w).take rem.toNat).map .put
        spi := { t.spi with statusNext := vs, rxWords := ws } } ∧
      regs.rem = some (remAfter rem (chunk rem)) := by
  obtain ⟨hnext, hread⟩ := State.readStatus_scripted hv
  have hpoll := step_rxPoll_eq_ite hp
  rw [hnext, hread, if_pos hdata] at hpoll
  obtain ⟨left, hleft⟩ := Nat.exists_eq_add_one_of_ne_zero (chunk_pos hpos).ne'
  have hemit := ((h.step hpoll).step (receivePop _ rem w ws rfl hr hw)).emit (n := chunk rem) rfl hy
    ((Nat.zero_add _).trans hleft.symm) rfl rfl rfl hr
  rw [← hleft, ← List.range_eq_range', map_lane_range_chunk] at hemit
  exact ⟨_, by simpa [pollPhase_rx hrl] using hemit, rfl⟩

/-- R170 to R172, R175: a receive burst in which every poll shows data. -/
theorem State.runsTo.receive {ws ws' : List Word} (h : s.runsTo t) (hp : t.phase = pollPhase rl rem) (hy : t.ready = true)
    (hrl : rl ≠ 0#24) (hr : t.regs.rem = some rem) (hlen : ws.length = wordCount rem.toNat)
    (hv : t.spi.statusNext = List.replicate (wordCount rem.toNat) v ++ vs) (hw : t.spi.rxWords = ws ++ ws')
    (hdata : t.params.hasData v = true) :
    ∃ regs, s.runsTo { t with
      phase := .busyPoll
      regs := regs
      tout := t.tout ++ (ws.flatMap lanes).take rem.toNat
      trace := t.trace ++ receiveEvents v rem.toNat ws
      spi := { t.spi with statusNext := vs, rxWords := ws' } } := by
  induction ws generalizing t rem with
  | nil =>
    obtain rfl : rem = 0#24 := by
      simp only [List.length_nil, wordCount] at hlen
      bv_omega
    obtain rfl : t.spi.rxWords = ws' := hw
    obtain rfl : t.spi.statusNext = vs := hv
    rw [← show t.phase = .busyPoll from hp]
    exact ⟨t.regs, by simpa [receiveEvents] using h⟩
  | cons w ws ih =>
    have hpos : 0 < rem.toNat := by
      simp only [List.length_cons, wordCount] at hlen
      omega
    have hafter := toNat_remAfter_chunk rem
    rw [pollPhase_rx hrl, if_neg (by bv_omega)] at hp
    rw [wordCount_of_pos hpos, List.replicate_succ, List.cons_append] at hv
    rw [wordCount_of_pos hpos, List.length_cons, Nat.add_right_cancel_iff] at hlen
    obtain ⟨regs, hword, hr'⟩ := h.rxWord hp hy hr hrl hpos hv hw hdata
    obtain ⟨regs', hrest⟩ := ih hword rfl hy hr' (by rw [hlen, hafter]) (by rw [hafter]) rfl hdata
    rw [take_flatMap_lanes_cons]
    exact ⟨regs', by simpa [receiveEvents, hafter] using hrest⟩

/-- R173: the completion poll that shows not busy ends the command. -/
theorem step_busyPoll_idle (hp : s.phase = .busyPoll) (hv : s.spi.statusNext = v :: vs)
    (hidle : s.params.isBusy v = false) :
    step s = .next { s with
      phase := .awaitOpcode
      trace := s.trace ++ [.rdStatus v]
      spi := { s.spi with statusNext := vs } } := by
  obtain ⟨hnext, hread⟩ := State.readStatus_scripted hv
  rw [step_busyPoll_eq_ite hp, hnext, hread, if_pos hidle]

end

/-! ### Whole operations -/

/-- Settles O37, by its steps: the command with its acknowledgment, the control write and the completion poll. -/
theorem zeroLengthOperation : Obligations.ZeroLengthOperation := by
  intro s rest v vs hp hy ht hv hidle
  obtain ⟨regs, hack, hcl, hm, hl⟩ := runFor_acknowledge (cl := 0#24) (rl := 0#24) hp hy ht
  have hfit : ctrlOverflows s.params 0#24 0#24 = false := ctrlOverflows_eq_false fun k _ => by simp
  have hrun := calc
    runFor 10 s = runFor 2 _ := runFor_add 8 2 hack
    _ = runFor 1 _ := runFor_next 1 (step_spiCtrl rfl hm hl hcl hfit)
    _ = runFor 0 _ := runFor_next 0 (step_busyPoll_idle rfl hv hidle)
  exact ⟨_, hrun, rfl, rfl, rfl, by simp only [List.append_assoc]; rfl, rfl⟩

/-- R160, R163 to R166: an operation up to its burst: the command with its acknowledgment, the control write and the command
bytes. -/
theorem runsTo_burst {s : State} {cl rl len : U24} {mode : Mode} {cmd rest : List Byte} (hlen : burstLength cl rl = len)
    (hmode : burstMode rl = mode) (hp : s.phase = .awaitOpcode) (hy : s.ready = true)
    (ht : s.tin = encode (.oSpiop cl rl) ++ (cmd ++ rest)) (hcmd : cmd.length = cl.toNat)
    (hbits : ∀ k, s.params.ctrlLenBits = some k → len.toNat < 2 ^ k ∧ cl.toNat < 2 ^ k)
    (hdepth : ∀ d, s.params.cmdFifoDepth = some d → cl.toNat ≤ d) :
    ∃ regs, s.runsTo { s with
        phase := pollPhase rl len
        regs := regs
        tin := rest
        tout := s.tout ++ [0x06#8]
        trace := s.trace ++ (encode (.oSpiop cl rl)).map .get ++ [.put 0x06#8, .wrCtrl mode.field len cl] ++
          commandEvents cmd
        spi := { s.spi with ctrl := ⟨mode.field, len, cl⟩, cmdFifo := s.spi.cmdFifo ++ cmd } } ∧
      regs.rem = some len := by
  subst hlen hmode
  obtain ⟨regs, hack, hcl, hm, hl⟩ := runFor_acknowledge hp hy ht
  have hack : s.runsTo _ := ⟨8, hack⟩
  obtain ⟨regs', hburst, hr⟩ := hack.control rfl rfl hcmd hcl hm hl hbits hdepth
  exact ⟨regs', by simpa using hburst, hr⟩

/-- Settles O35, by its parts: the operation up to its burst, the transmit burst and the completion poll. -/
theorem writeOperationIsServed : Obligations.WriteOperationIsServed := by
  intro s cl cmd data rest v vs hp hy hcmd hdata ht hv hroom hidle hbits hdepth
  obtain ⟨regs, hburst, hr⟩ := runsTo_burst (cl := cl) (rl := 0#24) (rest := data ++ rest) (if_pos rfl) (if_pos rfl) hp hy
    (by simpa [Frame.bytes] using ht) hcmd (fun k hk => ⟨hbits k hk, hbits k hk⟩) hdepth
  obtain ⟨regs', hsend⟩ := hburst.transmit (vs := v :: vs) rfl hr hdata rfl (by simpa [List.replicate_succ'] using hv) hroom
  obtain ⟨n, hn⟩ := hsend.step (step_busyPoll_idle rfl rfl hidle)
  exact ⟨n, _, hn, rfl, rfl, rfl, rfl, rfl, rfl, hy, rfl⟩

/-- Settles O36, by the same parts, with the receive burst. -/
theorem readOperationIsServed : Obligations.ReadOperationIsServed := by
  intro s cl rl cmd rest ws ws' vs v hp hy hrl hcmd ht hws hw hv hdata hidle hbits hdepth
  obtain ⟨regs, hburst, hr⟩ := runsTo_burst (cl := cl) (rest := rest) (if_neg hrl) (if_neg hrl) hp hy
    (by simpa [Frame.bytes] using ht) hcmd hbits hdepth
  obtain ⟨regs', hget⟩ := hburst.receive (vs := v :: vs) rfl hy hrl hr hws (by simpa [List.replicate_succ'] using hv) hw hdata
  obtain ⟨n, hn⟩ := hget.step (step_busyPoll_idle rfl rfl hidle)
  exact ⟨n, _, hn, rfl, rfl, by simp, rfl, rfl, rfl, hy, rfl⟩

end Sys2Proof.Machine

/-! PROOFS of the statements about the query responder (spec/42_query_responder.md): what the five queries queue, and the form
of the programmer name under every value of its open parameter. -/

namespace Sys2Proof

/-! ### The programmer name -/

/-- D21: the character of a code, stored less one, does not wrap in its byte. -/
theorem toNat_pgmNameChar (c : Fin 127) : (BitVec.ofNat 8 (c.val + 1)).toNat = c.val + 1 := by
  rw [BitVec.toNat_ofNat, Nat.mod_eq_of_lt (by omega)]

/-- R213, D21: the programmer name is ASCII characters, none of them NUL, and then NULs up to 16 bytes. -/
theorem Params.pgmName_eq_chars_append_nuls (p : Params) :
    ∃ chars : List Byte, p.pgmName = chars ++ List.replicate (16 - chars.length) 0x00#8 ∧
      ∀ c ∈ chars, 1 ≤ c.toNat ∧ c.toNat ≤ 0x7F := by
  refine ⟨(p.pgmNameCodes.take 16).map fun c => BitVec.ofNat 8 (c.val + 1), ?_, ?_⟩
  · have hnuls : 16 - p.pgmNameCodes.length = 16 - min 16 p.pgmNameCodes.length := by omega
    rw [Params.pgmName, List.length_map, List.length_take, hnuls]
  · refine List.forall_mem_map.mpr fun c _ => ?_
    rw [toNat_pgmNameChar]
    omega

end Sys2Proof

namespace Sys2Proof.Machine

/-! ### The queries' actions -/

/-- Settles O11: the action of every command, at each of the four queries. -/
theorem constantQueryActions : Obligations.ConstantQueryActions := by
  intro s i r h
  simp only [List.mem_cons, List.not_mem_nil, or_false, Prod.mk.injEq] at h
  rcases h with ⟨rfl, rfl⟩ | ⟨rfl, rfl⟩ | ⟨rfl, rfl⟩ | ⟨rfl, rfl⟩
  · exact exec_eq .qIface s
  · exact exec_eq .qCmdmap s
  · exact exec_eq .qSerbuf s
  · exact exec_eq .qBustype s

/-- Settles O12: the action of every command, and the length and the form of the name it queues. -/
theorem programmerNameAction : Obligations.ProgrammerNameAction := fun s =>
  ⟨s.params.pgmName, exec_eq .qPgmname s, rfl, s.params.length_pgmName, s.params.pgmName_eq_chars_append_nuls⟩

end Sys2Proof.Machine

/-! PROOFS of the statements about reset (spec/70_reset_and_hazards.md): the state a reset leaves in any environment, and the
engine's silence after it until the host sends a byte. -/

namespace Sys2Proof.Machine

/-- Settles O57: resetting the engine replaces its own part of the state and nothing of the environment's. -/
theorem resetState : Obligations.ResetState :=
  ⟨⟨rfl, rfl, rfl⟩, fun s =>
    ⟨s.resetEngine_phase, s.resetEngine_regs, s.resetEngine_fault, s.resetEngine_tin, s.resetEngine_tout, s.resetEngine_spi,
      s.resetEngine_params⟩⟩

/-- Settles O58: the engine after a reset awaits an opcode with nothing observed, so its steps are those of R61: it holds while
`tin` is empty, and a byte there is taken as the first event. -/
theorem resetPerformsNoEvent : Obligations.ResetPerformsNoEvent := by
  intro s
  refine ⟨s.resetEngine_trace, s.resetEngine_tout, s.resetEngine_spi, fun ht n => ?_, fun b rest ht => ?_⟩
  · exact runFor_of_hold (step_of_tin_nil (s := s.resetEngine) ht (by simp)) n
  · obtain ⟨regs, p, hs⟩ := takesHead_awaitOpcode s.resetEngine_phase b rest ht
    exact ⟨_, hs, rfl⟩

end Sys2Proof.Machine
